-- ==== Sys2Proof/Word.lean ====
section
/-! DEFINITION. The byte type. Words of the two variants are `BitVec 32` and `BitVec 64` (spec/00_scope.md R6, R8). -/

namespace Sys2Proof

/-- A byte is 8 bits (R8). Nothing in CORE is signed. -/
abbrev Byte := BitVec 8

end Sys2Proof
end

