-- ==== Sys2Proof/Config.lean ====
section
/-! DEFINITION. The two variants, the numeric fields of the parameter record `P` (spec/00_scope.md R6), and the free
values: what the spec leaves unspecified and the model may not fix. The tables `K`, `H0`, `ROT` of `P` are in
Sys2Proof/Machine/Constants.lean. -/

namespace Sys2Proof

/-- The two instances, one per variant: E256 = Engine(P256), E512 = Engine(P512) (R2, R5). -/
inductive Variant where
  | e256
  | e512
deriving DecidableEq, Repr

namespace Variant

/-- The other instance. -/
def other : Variant → Variant
  | .e256 => .e512
  | .e512 => .e256

/-- Word width in bits (R6 `W`). -/
abbrev W : Variant → Nat
  | .e256 => 32
  | .e512 => 64

/-- Bytes per word (R6 `WB`). -/
abbrev WB : Variant → Nat
  | .e256 => 4
  | .e512 => 8

/-- Block size in bytes (R6 `B`). -/
abbrev B : Variant → Nat
  | .e256 => 64
  | .e512 => 128

/-- Rounds per block, and length of the schedule (R6 `N`). -/
abbrev N : Variant → Nat
  | .e256 => 64
  | .e512 => 80

/-- Length-field size in bytes (R6 `LB`; the boundary `B - LB` is 56 and 112, spec/90_conflicts.md C1). -/
abbrev LB : Variant → Nat
  | .e256 => 8
  | .e512 => 16

/-- Byte Counter width in bits (R6 `BCW`, exactly `8 * LB` by R33). -/
abbrev BCW : Variant → Nat
  | .e256 => 64
  | .e512 => 128

/-- Digest size in bytes (R6 `DB`). -/
abbrev DB : Variant → Nat
  | .e256 => 32
  | .e512 => 64

end Variant

/-- A rotation or shift amount of a `w`-bit word: a number in `1 .. w-1`. Amounts outside that range are never
evaluated (R102, R103, R196, U8), and this type has none. Log entry 18. -/
structure Amount (w : Nat) where
  n : Nat
  pos : 1 ≤ n
  lt : n < w
deriving DecidableEq, Repr

/-! Free values (spec/93_implementation_defined.md U1, "any value"). Each is a constant with no body, read at the
counter `State.freeCount` (first number) and, in an array, at an index (second number). Log entries 2 to 4. -/

namespace Config

/-- What a working register holds where the spec calls it unspecified. -/
opaque freeR (v : Variant) : Nat → Nat → BitVec v.W

/-- What a word of the Hash State holds where the spec calls it unspecified. -/
opaque freeH (v : Variant) : Nat → Nat → BitVec v.W

/-- What a word of the Parsed Block holds where the spec calls it unspecified. -/
opaque freeM (v : Variant) : Nat → Nat → BitVec v.W

/-- What a word of the Message Schedule holds where the spec calls it unspecified. -/
opaque freeWS (v : Variant) : Nat → Nat → BitVec v.W

/-- What a byte of the digest output holds where the spec calls it unspecified. -/
opaque freeDIGEST (v : Variant) : Nat → Nat → Byte

/-- What a byte of the Block Buffer holds where the spec calls it unspecified. -/
opaque freeBUF (v : Variant) : Nat → Nat → Byte

/-- What the valid-byte count holds where the spec calls it unspecified; R34 keeps its bound `0 .. B`. -/
opaque freeCNT (v : Variant) : Nat → Fin (v.B + 1)

/-- What the Byte Counter holds where the spec calls it unspecified. -/
opaque freeBC (v : Variant) : Nat → BitVec v.BCW

/-- What the flag PADDED holds where the spec calls it unspecified. -/
opaque freePADDED (v : Variant) : Nat → Bool

/-- What the flag TERMINAL holds where the spec calls it unspecified. -/
opaque freeTERMINAL (v : Variant) : Nat → Bool

end Config

end Sys2Proof
end

