-- ==== Sys2Proof/Syntax.lean ====
section
/-! DEFINITION. The instructions: one constructor per row of spec/opcode_table.json (spec/30_encoding.md R86), the phase
names of the sequencer (R84), and the two instruction formats (R80). -/

namespace Sys2Proof

/-- The twelve phases of the sequencer, in the order of their codes (R84). Codes 12 to 15 name no phase. -/
inductive Phase where
  | idle
  | clrbuf
  | read
  | pad
  | parse
  | expand
  | load
  | round
  | fold
  | emit
  | done
  | error
deriving DecidableEq, Repr

/-- An instruction: a host command with its operand `v`, or what the sequencer does in one phase. Only ROUND has an
operand field, the round index `T` (R85); every other operand is implicit, and the instance that performs a
micro-operation is the one whose SEQ names it. -/
inductive Instr where
  /-- host command START, operand `v` (R172) -/
  | start (v : Variant)
  /-- host command CLEAR, operand `v` (R173) -/
  | clear (v : Variant)
  /-- hold phase IDLE (R176) -/
  | idle
  /-- zero the Block Buffer (R134) -/
  | clrbuf
  /-- one source read into the Block Buffer (R135) -/
  | read
  /-- marker, length field, terminal flag (R138) -/
  | pad
  /-- Block Buffer to 16 big-endian words (R150) -/
  | parse
  /-- 16 words to the message schedule (R152) -/
  | expand
  /-- working registers from the Hash State (R160) -/
  | load
  /-- one compression round, operand `T` (R161) -/
  | round (t : BitVec 7)
  /-- working registers into the Hash State (R163) -/
  | fold
  /-- Hash State into DIGEST (R175) -/
  | emit
  /-- hold phase DONE (R176) -/
  | done
  /-- hold phase ERROR (R176) -/
  | error
deriving DecidableEq, Repr

/-- An instruction word of one of the two formats (R80): a command word on port CMD, or the sequencer register. -/
inductive InstrWord where
  /-- format CMD, 8 bits (R81) -/
  | cmd (w : BitVec 8)
  /-- format SEQ, 11 bits (R83) -/
  | seq (w : BitVec 11)
deriving DecidableEq, Repr

end Sys2Proof
end

