-- ==== Sys2Proof/WellFormed.lean ====
section
/-! DEFINITION. Which instructions are well formed: the one operand check the spec makes (spec/30_encoding.md R83). -/

namespace Sys2Proof

/-- The index of a ROUND is at most 79, the largest `N - 1` (R83; spec/30_encoding.md R87 c). Every other instruction is
well formed whatever its operand. Log entry 23. -/
def Instr.wf : Instr → Bool
  | .start _ => true
  | .clear _ => true
  | .idle => true
  | .clrbuf => true
  | .read => true
  | .pad => true
  | .parse => true
  | .expand => true
  | .load => true
  | .round t => decide (t.toNat < 80)
  | .fold => true
  | .emit => true
  | .done => true
  | .error => true

/-- Well formed for the instance that performs it: its ROUND index is at most that instance's `N - 1` (R83). -/
def Instr.wfFor (v : Variant) : Instr → Bool
  | .start _ => true
  | .clear _ => true
  | .idle => true
  | .clrbuf => true
  | .read => true
  | .pad => true
  | .parse => true
  | .expand => true
  | .load => true
  | .round t => decide (t.toNat < v.N)
  | .fold => true
  | .emit => true
  | .done => true
  | .error => true

end Sys2Proof
end

