-- ==== Sys2Proof/Decode.lean ====
section
/-! DEFINITION. The decoder and the encoder of the two formats, from spec/30_encoding.md R81, R83, R84, R87 and
spec/opcode_table.json. Decoding is total and rejects by name. -/

namespace Sys2Proof

/-- Why a word is no instruction. -/
inductive DecodeError where
  /-- a command word other than 0x02, 0x03, 0x04, 0x05 (R87 a) -/
  | undefinedCommand (w : BitVec 8)
  /-- a phase code 12 to 15 (R87 b) -/
  | unreachablePhase (code : BitVec 4)
  /-- a number with a bit set above the format's width: it is no word of the format (log entry 20) -/
  | tooWide
deriving DecidableEq, Repr

/-- The phase code of a phase (R84). -/
def Phase.code : Phase → BitVec 4
  | .idle => 0#4
  | .clrbuf => 1#4
  | .read => 2#4
  | .pad => 3#4
  | .parse => 4#4
  | .expand => 5#4
  | .load => 6#4
  | .round => 7#4
  | .fold => 8#4
  | .emit => 9#4
  | .done => 10#4
  | .error => 11#4

/-- The phase a code names; codes 12 to 15 name none (R84, R87 b). -/
def Phase.ofCode (c : BitVec 4) : Option Phase :=
  match c.toNat with
  | 0 => some .idle
  | 1 => some .clrbuf
  | 2 => some .read
  | 3 => some .pad
  | 4 => some .parse
  | 5 => some .expand
  | 6 => some .load
  | 7 => some .round
  | 8 => some .fold
  | 9 => some .emit
  | 10 => some .done
  | 11 => some .error
  | _ => none

/-- The instruction a phase and a round index stand for; `T` is an operand of ROUND and ignored by every other phase
(R83). -/
def Instr.ofPhase (p : Phase) (t : BitVec 7) : Instr :=
  match p with
  | .idle => .idle
  | .clrbuf => .clrbuf
  | .read => .read
  | .pad => .pad
  | .parse => .parse
  | .expand => .expand
  | .load => .load
  | .round => .round t
  | .fold => .fold
  | .emit => .emit
  | .done => .done
  | .error => .error

/-- The instance that bit `v` of a command word addresses (R81). -/
def Variant.ofBit (b : Bool) : Variant := if b then .e512 else .e256

/-- Bit `v` of the command words that address an instance (R81). -/
def Variant.bit : Variant → BitVec 1
  | .e256 => 0#1
  | .e512 => 1#1

/-- Decodes format CMD: bits 7:4 must be zero, bits 3:1 are `op` (001 START, 010 CLEAR), bit 0 is `v` (R81). Every other
word is undefined (R87 a). -/
def decodeCmd (w : BitVec 8) : Except DecodeError Instr :=
  let zero := w.extractLsb' 4 4
  let op := w.extractLsb' 1 3
  let v := Variant.ofBit (w.getLsbD 0)
  if zero = 0#4 then
    if op = 1#3 then .ok (.start v)
    else if op = 2#3 then .ok (.clear v)
    else .error (.undefinedCommand w)
  else .error (.undefinedCommand w)

/-- The `PHASE` field of format SEQ (R83). -/
def seqPhase (w : BitVec 11) : BitVec 4 := w.extractLsb' 7 4

/-- The `T` field of format SEQ (R83). -/
def seqT (w : BitVec 11) : BitVec 7 := w.extractLsb' 0 7

/-- Decodes format SEQ (R83, R84). -/
def decodeSeq (w : BitVec 11) : Except DecodeError Instr :=
  match Phase.ofCode (seqPhase w) with
  | some p => .ok (Instr.ofPhase p (seqT w))
  | none => .error (.unreachablePhase (seqPhase w))

/-- Decodes an instruction word of either format. -/
def decode : InstrWord → Except DecodeError Instr
  | .cmd w => decodeCmd w
  | .seq w => decodeSeq w

/-- The command word of an `op` code and an instance: `0000 ooo v` (R81). -/
def cmdWord (op : BitVec 3) (v : Variant) : BitVec 8 := (0#4 ++ op) ++ v.bit

/-- The sequencer word of a phase and a round index: `PHASE` above `T` (R83). -/
def seqWord (p : Phase) (t : BitVec 7) : BitVec 11 := p.code ++ t

/-- The word of an instruction; a phase that ignores `T` is written with `T = 0` (log entry 21). -/
def encode : Instr → InstrWord
  | .start v => .cmd (cmdWord 1#3 v)
  | .clear v => .cmd (cmdWord 2#3 v)
  | .idle => .seq (seqWord .idle 0#7)
  | .clrbuf => .seq (seqWord .clrbuf 0#7)
  | .read => .seq (seqWord .read 0#7)
  | .pad => .seq (seqWord .pad 0#7)
  | .parse => .seq (seqWord .parse 0#7)
  | .expand => .seq (seqWord .expand 0#7)
  | .load => .seq (seqWord .load 0#7)
  | .round t => .seq (seqWord .round t)
  | .fold => .seq (seqWord .fold 0#7)
  | .emit => .seq (seqWord .emit 0#7)
  | .done => .seq (seqWord .done 0#7)
  | .error => .seq (seqWord .error 0#7)

/-- The word of format CMD (rows of at most 8 bits) or SEQ (wider rows) that a number of the opcode table is; a number
with a bit above the format's width is no word (log entry 20). -/
def tableWord (nbits w : Nat) : Except DecodeError InstrWord :=
  if nbits ≤ 8 then
    if w < 2 ^ 8 then .ok (.cmd (BitVec.ofNat 8 w)) else .error .tooWide
  else
    if w < 2 ^ 11 then .ok (.seq (BitVec.ofNat 11 w)) else .error .tooWide

/-- The instruction the decoder reads from a word numbered as spec/opcode_table.json numbers it. -/
def decodeTableWord (nbits w : Nat) : Option Instr :=
  match tableWord nbits w with
  | .ok iw =>
    match decode iw with
    | .ok i => some i
    | .error _ => none
  | .error _ => none

end Sys2Proof
end

