-- ==== Sys2Proof/Machine/State.lean ====
section
/-! DEFINITION. The state of CORE as plain data: everything spec/10_state.md gives an engine instance, the three ports,
and the model's own fields (who moves next, the counter of free values). INVENTORY.md lists each with its rule. -/

namespace Sys2Proof.Machine

/-- The sequencer register `SEQ = (PHASE[3:0], T[6:0])`, 11 bits (R24). -/
structure Seq where
  /-- `SEQ[10:7]` -/
  PHASE : BitVec 4
  /-- `SEQ[6:0]` -/
  T : BitVec 7
deriving DecidableEq, Repr

/-- The Block Buffer: the bytes that differ from what an unlisted address reads as, addresses strictly rising
(R39; log entry 17). Operations and the canonical form are in Machine/Memory.lean. -/
abbrev Memory := List Host.Cell

/-- One engine instance `Engine(P)`: all the state of spec/10_state.md, under the spec's own names. STATUS is a view of
`SEQ.PHASE` (R35), and `K`, `H0`, `ROT` are constants (R29, R30), so neither is here. -/
structure Engine (v : Variant) where
  /-- the sequencer register (R24, R25) -/
  SEQ : Seq
  /-- the working registers (R20) -/
  R : Vector (BitVec v.W) 8
  /-- the Hash State (R26) -/
  H : Vector (BitVec v.W) 8
  /-- the Parsed Block (R27) -/
  M : Vector (BitVec v.W) 16
  /-- the Message Schedule (R28) -/
  WS : Vector (BitVec v.W) v.N
  /-- the digest output (R31) -/
  DIGEST : Vector Byte v.DB
  /-- the Block Buffer (R39) -/
  BUF : Memory
  /-- the valid-byte count, `0 .. B` (R34) -/
  CNT : Fin (v.B + 1)
  /-- the Byte Counter (R33) -/
  BC : BitVec v.BCW
  /-- the padding marker has been appended in this stream (R32) -/
  PADDED : Bool
  /-- the block in BUF is the terminal block (R32) -/
  TERMINAL : Bool
  /-- the code of the error that led to ERROR (R36) -/
  CAUSE : BitVec 2
  /-- the opaque kind of a source failure (R37) -/
  ERRKIND : BitVec 8
deriving DecidableEq, Repr

/-- What a source answers to one `SrcRead(n)` (R56). `data []` is end-of-stream. -/
inductive SrcAnswer where
  | data (d : List Byte)
  | err (kind : BitVec 8)
deriving DecidableEq, Repr

/-- The byte source behind a port SRC, as plain data (R57, R59, R89; log entry 11). -/
inductive Source where
  /-- A source that gives these answers one after another, whatever is asked, and then never answers again (R177, U11).
  It need not be conforming (U9, U10). With no answers it stands for no source attached. -/
  | script (answers : List SrcAnswer)
  /-- A source holding the bytes `rest` (R57). Its request number `asked` (counted from 0) is answered with `Err(kind)` if
  `errs` pairs that number with `kind` (`.err` of R89); otherwise with as many of the next bytes as asked, but at most the
  head of `chunks`, one entry a request (`.chunks` of R89). With both lists empty it is the memory cursor of R59. -/
  | stream (rest : List Byte) (chunks : List Nat) (errs : List (Nat × BitVec 8)) (asked : Nat)
deriving DecidableEq, Repr

/-- Port SRC of one instance: the source behind it, and the sizes of the requests answered so far, oldest first, which is
all a source observes of CORE (R41, R58). -/
structure SrcPort where
  source : Source
  requests : List Nat
deriving DecidableEq, Repr

/-- Who can move (R11). A source moves only within the READ step that asks it. -/
inductive Agent where
  | engine (v : Variant)
  | host
deriving DecidableEq, Repr

/-- What the host can do between two steps of CORE (R11, R38, R82, R89, R220 to R222; log entry 15). -/
inductive HostAct where
  /-- drive port CMD with this word, in place of whatever is there -/
  | offer (w : BitVec 8)
  /-- stop driving port CMD -/
  | withdraw
  /-- `HostRead(inst, reg)`; the answer goes to `hostLog` -/
  | read (v : Variant) (reg : BitVec 8)
  /-- `WAIT`: read STATUS of the instance until BUSY reads 0 (R89) -/
  | waitIdle (v : Variant)
  /-- attach a source to the instance's port SRC (R222 step 2) -/
  | attach (v : Variant) (src : Source)
  /-- assert the hardware reset (R220, R221) -/
  | reset
deriving DecidableEq, Repr

/-- Why a `HostRead` is not answered. This refuses the read; it stops no machine. -/
inductive HostReadRefusal where
  /-- DIGEST outside the DONE phase (R38, U3) -/
  | digestNotReady
  /-- a register number the map does not have (R38, U4) -/
  | reservedRegister
deriving DecidableEq, Repr

/-- What a `HostRead` returns (R38). -/
inductive HostReadAnswer where
  | value (b : BitVec 8)
  | refused (r : HostReadRefusal)
deriving DecidableEq, Repr

/-- One `HostRead` the host has made, and its answer. -/
structure HostRead where
  inst : Variant
  reg : BitVec 8
  answer : HostReadAnswer
deriving DecidableEq, Repr

/-- The whole machine: two instances (R5), their ports, and who moves next. -/
structure State where
  e256 : Engine .e256
  e512 : Engine .e512
  /-- port SRC of E256 (R56) -/
  src256 : SrcPort
  /-- port SRC of E512 (R56) -/
  src512 : SrcPort
  /-- the word the host holds on port CMD, if any (R81, R82); CORE queues nothing -/
  cmd : Option (BitVec 8)
  /-- what the host will do, in order (the model's own field, log entry 15) -/
  host : List HostAct
  /-- the host's register reads and their answers, oldest first (the model's own field, log entry 14) -/
  hostLog : List HostRead
  /-- which agents move next (the model's own field, log entry 6) -/
  schedule : List Agent
  /-- the instance whose sequencer word is being performed (the model's own field, log entry 6) -/
  cur : Variant
  /-- how many times free values have been drawn (the model's own field, log entry 5) -/
  freeCount : Nat
deriving DecidableEq, Repr

/-- Why a step stops. Errors of READ are no faults: they enter the ERROR phase, which is a next state (R194). -/
inductive Fault where
  /-- Raised by `step` when the SEQ of the moving instance holds a phase code 12 to 15 (R87 b, U6): the spec gives such a
  code no meaning, and no rule writes one. Safe. -/
  | unreachablePhase
  /-- Raised by ROUND when its index is not below `N` (R87 c, U7): there is no `K[T]` and no `WS[T]`, and ROUND is never
  entered so. Safe. -/
  | roundIndexOutOfRange
deriving DecidableEq, Repr

/-- Why an instruction has no meaning. -/
inductive Refusal where
  /-- Raised by an arm of `exec` whose instruction has no meaning yet. Safe. No arm of this model raises it. -/
  | notModelled (mnemonic : String)
deriving DecidableEq, Repr

/-- An instance right after power-on: SEQ, CAUSE and ERRKIND as R43 says; every other element is unspecified there and
holds zero here (DESIGN CHOICE, unsafe, log entry 1). -/
def Engine.reset (v : Variant) : Engine v where
  SEQ := ⟨0#4, 0#7⟩
  R := Vector.replicate 8 0
  H := Vector.replicate 8 0
  M := Vector.replicate 16 0
  WS := Vector.replicate v.N 0
  DIGEST := Vector.replicate v.DB 0
  BUF := []
  CNT := 0
  BC := 0
  PADDED := false
  TERMINAL := false
  CAUSE := 0#2
  ERRKIND := 0#8

/-- No source attached: nothing answers, and nothing has been asked (log entry 24). -/
def SrcPort.silent : SrcPort := ⟨.script [], []⟩

/-- The machine right after reset (R43, R220), with nothing attached to its ports and nothing scheduled
(log entries 1, 5, 24). -/
def State.reset : State where
  e256 := Engine.reset .e256
  e512 := Engine.reset .e512
  src256 := SrcPort.silent
  src512 := SrcPort.silent
  cmd := none
  host := []
  hostLog := []
  schedule := []
  cur := .e256
  freeCount := 0

end Sys2Proof.Machine
end

