-- ==== Sys2Proof/Machine/Memory.lean ====
section
/-! DEFINITION. The Block Buffer as a memory: bytes, big-endian values, and the canonical form (spec/20_memory.md R50,
R51, R53). Addresses are offsets `0 .. B-1`; the bounds are kept by the operations of Machine/Ops.lean (log entry 18). -/

namespace Sys2Proof.Machine

/-- What an address that is not listed reads as: zero, what CLRBUF leaves in every byte (R134). For a Block Buffer that
nothing has cleared since power-on the spec gives no value (log entries 1 and 17). -/
def Memory.unlisted : Byte := 0x00#8

/-- The byte at an address. -/
def Memory.read : Memory → Nat → Byte
  | [], _ => Memory.unlisted
  | (c, x) :: m, a => if c = a then x else Memory.read m a

/-- Puts a byte in front of the cells above its address, unless it is what an unlisted address reads as. -/
def Memory.consCell (a : Nat) (b : Byte) (m : Memory) : Memory :=
  if b = Memory.unlisted then m else (a, b) :: m

/-- Writes a byte, keeping the canonical form. -/
def Memory.write : Memory → Nat → Byte → Memory
  | [], a, b => Memory.consCell a b []
  | (c, x) :: m, a, b =>
    if a < c then Memory.consCell a b ((c, x) :: m)
    else if a = c then Memory.consCell a b m
    else (c, x) :: Memory.write m a b

/-- Writes bytes at consecutive addresses, the first at `a`. -/
def Memory.writeBytes : Memory → Nat → List Byte → Memory
  | m, _, [] => m
  | m, a, b :: bs => Memory.writeBytes (Memory.write m a b) (a + 1) bs

/-- `MemRead(a, n)`: the sum over `j` of `BUF[a+j] * 2^(8*(n-1-j))`, big-endian (R50). -/
def Memory.readBE (m : Memory) : Nat → Nat → Nat
  | _, 0 => 0
  | a, n + 1 => (Memory.read m a).toNat * 2 ^ (8 * n) + Memory.readBE m (a + 1) n

/-- The `n` bytes of a value, most significant first: byte `j` is `(x >> (8*(n-1-j))) & 0xFF` (R50). -/
def beBytes : Nat → Nat → List Byte
  | 0, _ => []
  | n + 1, x => BitVec.ofNat 8 (x / 2 ^ (8 * n)) :: beBytes n x

/-- The value of bytes read big-endian (R50, `BE_n` of R179). -/
def beValue : List Byte → Nat
  | [] => 0
  | b :: bs => b.toNat * 2 ^ (8 * bs.length) + beValue bs

/-- A memory whose bytes `0 .. n-1` are those of `f`. -/
def Memory.fill (f : Nat → Byte) : Nat → Memory
  | 0 => []
  | n + 1 => Memory.write (Memory.fill f n) n (f n)

/-- Addresses rise strictly from `lo`, and no cell holds what an unlisted address reads as. -/
def Memory.wfFrom : Nat → Memory → Bool
  | _, [] => true
  | lo, (c, x) :: m => decide (lo ≤ c) && decide (x ≠ Memory.unlisted) && Memory.wfFrom (c + 1) m

/-- The canonical form of a Block Buffer of `size` bytes: addresses strictly rising and below `size`, no entry equal to
what an unlisted address reads as. -/
def Memory.wf (size : Nat) (m : Memory) : Bool :=
  Memory.wfFrom 0 m && m.all fun c => decide (c.1 < size)

end Sys2Proof.Machine
end

