-- ==== Sys2Proof/Machine/Source.lean ====
section
/-! DEFINITION. The byte sources behind the ports SRC (spec/20_memory.md R56 to R59; the source directives of
spec/30_encoding.md R89). -/

namespace Sys2Proof.Machine

/-- How many bytes a source is willing to give to a request of `n`: at most the head of its list of chunk sizes, and as
many as asked once the list is used up (`.chunks` of R89). -/
def chunkLimit (chunks : List Nat) (n : Nat) : Nat :=
  match chunks with
  | [] => n
  | c :: _ => min n c

/-- The answer to `SrcRead(n)` and the source after it; `none` when the source does not answer (R56, R57, R59, U11).
The bytes given are consumed (R55). -/
def Source.answer (src : Source) (n : Nat) : Option (SrcAnswer × Source) :=
  match src with
  | .script [] => none
  | .script (a :: as) => some (a, .script as)
  | .stream rest chunks errs asked =>
    match errs.lookup asked with
    | some kind => some (.err kind, .stream rest chunks.tail errs (asked + 1))
    | none =>
      let m := chunkLimit chunks n
      some (.data (rest.take m), .stream (rest.drop m) chunks.tail errs (asked + 1))

/-- The memory cursor `Cursor(s, 0)` (R59). -/
def Source.cursor (s : List Byte) : Source := .stream s [] [] 0

/-- The answers a source gives to a sequence of requests, in order, as far as it answers. -/
def Source.answers : Source → List Nat → List SrcAnswer
  | _, [] => []
  | src, n :: ns =>
    match src.answer n with
    | none => []
    | some (a, src') => a :: Source.answers src' ns

end Sys2Proof.Machine
end

