-- ==== Sys2Proof/Machine/WordFns.lean ====
section
/-! DEFINITION. Word arithmetic and the six mixing functions (spec/40_word_functions.md). Word addition is `BitVec`
addition, modulo `2^W` (R100); the bitwise operators are `BitVec`'s (R101). -/

namespace Sys2Proof.Machine

/-- `ROTR(x, n) = ((x >> n) | (x << (W - n))) mod 2^W`, for `1 <= n <= W-1` (R102). -/
def rotr {w : Nat} (x : BitVec w) (a : Amount w) : BitVec w := (x >>> a.n) ||| (x <<< (w - a.n))

/-- `SHR(x, n)`: logical right shift, for `1 <= n <= W-1` (R103). -/
def shr {w : Nat} (x : BitVec w) (a : Amount w) : BitVec w := x >>> a.n

/-- `choose(x, y, z) = (x & y) ^ (~x & z)` (R104). -/
def choose {w : Nat} (x y z : BitVec w) : BitVec w := (x &&& y) ^^^ (~~~x &&& z)

/-- `majority(x, y, z) = (x & y) ^ (x & z) ^ (y & z)` (R105). -/
def majority {w : Nat} (x y z : BitVec w) : BitVec w := (x &&& y) ^^^ (x &&& z) ^^^ (y &&& z)

/-- Three rotations combined by exclusive or (R106, R107). -/
def sigmaRotRotRot {w : Nat} (a : SigmaAmounts w) (x : BitVec w) : BitVec w :=
  rotr x a.r1 ^^^ rotr x a.r2 ^^^ rotr x a.r3

/-- Two rotations and a shift combined by exclusive or (R108, R109). -/
def sigmaRotRotShr {w : Nat} (a : SigmaAmounts w) (x : BitVec w) : BitVec w :=
  rotr x a.r1 ^^^ rotr x a.r2 ^^^ shr x a.r3

/-- `upper_sigma0` (R106). -/
def upperSigma0 (v : Variant) (x : BitVec v.W) : BitVec v.W := sigmaRotRotRot (rotUpper0 v) x

/-- `upper_sigma1` (R107). -/
def upperSigma1 (v : Variant) (x : BitVec v.W) : BitVec v.W := sigmaRotRotRot (rotUpper1 v) x

/-- `lower_sigma0` (R108). -/
def lowerSigma0 (v : Variant) (x : BitVec v.W) : BitVec v.W := sigmaRotRotShr (rotLower0 v) x

/-- `lower_sigma1` (R109). -/
def lowerSigma1 (v : Variant) (x : BitVec v.W) : BitVec v.W := sigmaRotRotShr (rotLower1 v) x

end Sys2Proof.Machine
end

