-- ==== Sys2Proof/Machine/Ops.lean ====
section
/-! DEFINITION. The named operations every meaning is written over: access to an instance and its port, the sequencer
register, the Block Buffer within its bounds, error entry and leaving an error, and the elements the spec leaves
unspecified. -/

namespace Sys2Proof.Machine

/-! ### Instances and ports -/

/-- The instance of a variant (R5). -/
def State.engine (s : State) : (v : Variant) → Engine v
  | .e256 => s.e256
  | .e512 => s.e512

/-- Replaces the instance of a variant. -/
def State.setEngine (s : State) : (v : Variant) → Engine v → State
  | .e256, e => { s with e256 := e }
  | .e512, e => { s with e512 := e }

/-- Port SRC of an instance (R56). -/
def State.port (s : State) : Variant → SrcPort
  | .e256 => s.src256
  | .e512 => s.src512

/-- Replaces port SRC of an instance. -/
def State.setPort (s : State) : Variant → SrcPort → State
  | .e256, p => { s with src256 := p }
  | .e512, p => { s with src512 := p }

/-- What the host holds on port CMD (R82). -/
def State.setCmd (s : State) (c : Option (BitVec 8)) : State := { s with cmd := c }

/-- What the host has still to do (log entry 15). -/
def State.setHost (s : State) (acts : List HostAct) : State := { s with host := acts }

/-- A register read of the host, with its answer, is recorded (log entry 14). -/
def State.logRead (s : State) (r : HostRead) : State := { s with hostLog := s.hostLog ++ [r] }

/-- Free values have been drawn at `freeCount` (log entry 5). -/
def State.drawFree (s : State) : State := { s with freeCount := s.freeCount + 1 }

/-- The step of the instance that moves, when it touches nothing but that instance (R54). -/
def State.onCur (s : State) (f : (v : Variant) → Engine v → Engine v) : State :=
  s.setEngine s.cur (f s.cur (s.engine s.cur))

/-! ### The sequencer register -/

/-- The 11-bit value of SEQ (R24). -/
def Seq.toWord (q : Seq) : BitVec 11 := q.PHASE ++ q.T

/-- The register that holds an 11-bit value (R24). -/
def Seq.ofWord (w : BitVec 11) : Seq := ⟨seqPhase w, seqT w⟩

/-- `PHASE <- p`; T is unchanged (R10, R25). -/
def Engine.setPhase {v : Variant} (e : Engine v) (p : Phase) : Engine v :=
  { e with SEQ := ⟨p.code, e.SEQ.T⟩ }

/-- The phase of an instance is `p`. -/
def Engine.inPhase {v : Variant} (e : Engine v) (p : Phase) : Bool := decide (e.SEQ.PHASE = p.code)

/-- The instance holds: IDLE, DONE or ERROR (R84, R170). -/
def Engine.holds {v : Variant} (e : Engine v) : Bool := e.inPhase .idle || e.inPhase .done || e.inPhase .error

/-- The instance is busy: its phase is the code of a micro-operation, 1 to 9 (R35, R170). -/
def Engine.busy {v : Variant} (e : Engine v) : Bool :=
  decide (1 ≤ e.SEQ.PHASE.toNat) && decide (e.SEQ.PHASE.toNat ≤ 9)

/-! ### The Block Buffer, within `0 .. B-1` -/

/-- `BUF[a]` (R10, R39). -/
def Engine.bufByte {v : Variant} (e : Engine v) (a : Fin v.B) : Byte := Memory.read e.BUF a.val

/-- `BUF[a] <- b` (R10, R39). -/
def Engine.bufWrite {v : Variant} (e : Engine v) (a : Fin v.B) (b : Byte) : Engine v :=
  { e with BUF := Memory.write e.BUF a.val b }

/-- `BUF[a + j] <- d[j]` for every `j`; every byte lands in the buffer (R135 line 9). -/
def Engine.bufWriteBytes {v : Variant} (e : Engine v) (a : Nat) (d : List Byte) (_ : a + d.length ≤ v.B) : Engine v :=
  { e with BUF := Memory.writeBytes e.BUF a d }

/-- `MemRead(a, n)`; every byte lies in the buffer (R10, R50). -/
def Engine.memRead {v : Variant} (e : Engine v) (a n : Nat) (_ : a + n ≤ v.B) : Nat := Memory.readBE e.BUF a n

/-- `MemWrite(a, n, x)`; every byte lands in the buffer (R10, R50). -/
def Engine.memWrite {v : Variant} (e : Engine v) (a n x : Nat) (_ : a + n ≤ v.B) : Engine v :=
  { e with BUF := Memory.writeBytes e.BUF a (beBytes n x) }

/-- `BUF[a] <- 0x00` for every offset (R134). -/
def Engine.bufClear {v : Variant} (e : Engine v) : Engine v := { e with BUF := [] }

/-! ### Taking an error, and leaving one -/

/-- The three errors, all raised by READ (R190). -/
inductive Cause where
  /-- the source answered `Err(kind)` (R191) -/
  | srcIoFailure (kind : BitVec 8)
  /-- too many bytes, or bytes after the marker (R192) -/
  | srcProtocol
  /-- the stream is too long for its length field (R193) -/
  | lengthOverflow
deriving DecidableEq, Repr

/-- The code of an error in CAUSE (R36, R190). -/
def Cause.code : Cause → BitVec 2
  | .srcIoFailure _ => 1#2
  | .srcProtocol => 2#2
  | .lengthOverflow => 3#2

/-- What ERRKIND records of an error (R37, R190). -/
def Cause.kind : Cause → BitVec 8
  | .srcIoFailure kind => kind
  | .srcProtocol => 0#8
  | .lengthOverflow => 0#8

/-- `raise X(info)`: error entry (R194). Nothing else is written. -/
def Engine.raise {v : Variant} (e : Engine v) (x : Cause) : Engine v :=
  { e.setPhase .error with CAUSE := x.code, ERRKIND := x.kind }

/-- What both ways out of ERROR do to the recorded error, and to `T` (R172, R173, R198). There is no return into the failed
computation. -/
def Engine.leaveError {v : Variant} (e : Engine v) (p : Phase) : Engine v :=
  { e with CAUSE := 0#2, ERRKIND := 0#8, SEQ := ⟨p.code, 0#7⟩ }

/-! ### Elements the spec leaves unspecified -/

/-- `R`, `M`, `WS`, `DIGEST` hold any value: what U1 lists after START, and part of what CLEAR and the hardware reset leave
unspecified. `k` is the counter the free values are read at. -/
def Engine.unspecifyScratch {v : Variant} (e : Engine v) (k : Nat) : Engine v :=
  { e with
    R := Vector.ofFn fun i => Config.freeR v k i.val
    M := Vector.ofFn fun i => Config.freeM v k i.val
    WS := Vector.ofFn fun i => Config.freeWS v k i.val
    DIGEST := Vector.ofFn fun i => Config.freeDIGEST v k i.val }

/-- `H, DIGEST, BC, PADDED, TERMINAL, BUF, CNT, M, WS, R` hold any value (R173, R43, U1). -/
def Engine.unspecifyAll {v : Variant} (e : Engine v) (k : Nat) : Engine v :=
  { e.unspecifyScratch k with
    H := Vector.ofFn fun i => Config.freeH v k i.val
    BC := Config.freeBC v k
    PADDED := Config.freePADDED v k
    TERMINAL := Config.freeTERMINAL v k
    BUF := Memory.fill (Config.freeBUF v k) v.B
    CNT := Config.freeCNT v k }

/-- The state CLEAR and the hardware reset put an instance in: IDLE, no error, the rest unspecified (R43, R173, R220). -/
def Engine.toIdle {v : Variant} (e : Engine v) (k : Nat) : Engine v := (e.leaveError .idle).unspecifyAll k

end Sys2Proof.Machine
end

