-- ==== Sys2Proof/Machine/Operands.lean ====
section
/-! DEFINITION. The operands of the two formats (spec/30_encoding.md R85): `v` of a command, `T` of ROUND; and the implicit
sizes and offsets of the micro-operations (spec/20_memory.md R52, R53). -/

namespace Sys2Proof.Machine

/-- The instance a host command addresses, its operand `v` (R81). A micro-operation is no host command. -/
def commandTarget : Instr → Option Variant
  | .start v => some v
  | .clear v => some v
  | .idle => none
  | .clrbuf => none
  | .read => none
  | .pad => none
  | .parse => none
  | .expand => none
  | .load => none
  | .round _ => none
  | .fold => none
  | .emit => none
  | .done => none
  | .error => none

/-- `K[T]` (R85, R161). -/
def roundConstant (v : Variant) (t : BitVec 7) (h : t.toNat < v.N) : BitVec v.W := (K v)[t.toNat]

/-- `WS[T]` (R85, R161). -/
def Engine.scheduleWord {v : Variant} (e : Engine v) (t : BitVec 7) (h : t.toNat < v.N) : BitVec v.W := e.WS[t.toNat]

/-- How many bytes a READ asks for: `B - CNT`, the space left in the block (R135 line 1, R58). -/
def Engine.requestSize {v : Variant} (e : Engine v) : Nat := v.B - e.CNT.val

/-- The slice of BUF that word `i` of the Parsed Block reads lies in the buffer (R52). -/
theorem slice_in_block (v : Variant) (i : Fin 16) : v.WB * i.val + v.WB ≤ v.B := by
  cases v <;> simp only [Variant.WB, Variant.B] <;> omega

/-- The length field lies in the buffer, at offset `B - LB` (R52). -/
theorem lengthField_in_block (v : Variant) : (v.B - v.LB) + v.LB ≤ v.B := by cases v <;> decide

/-- Byte `i` of the digest belongs to word `i / WB` of the Hash State (R175). -/
theorem digestWord_lt (v : Variant) (i : Fin v.DB) : i.val / v.WB < 8 := by
  have h := i.isLt
  cases v <;> simp only [Variant.WB, Variant.DB] at h ⊢ <;> omega

/-- Sixteen words and the computed ones make the whole schedule (R28). -/
theorem schedule_length (v : Variant) : 16 + (v.N - 16) = v.N := by cases v <;> rfl

end Sys2Proof.Machine
end

