-- ==== Sys2Proof/Machine/Flags.lean ====
section
/-! DEFINITION. The two flags of the Block Buffer and the STATUS view (spec/10_state.md R32, R35). CORE has no arithmetic
flag (R32), so no word operation writes one. -/

namespace Sys2Proof.Machine

/-- `PADDED <- 1` (R138 line 4). -/
def Engine.setPadded {v : Variant} (e : Engine v) : Engine v := { e with PADDED := true }

/-- `TERMINAL <- 1` (R138 line 7). -/
def Engine.setTerminal {v : Variant} (e : Engine v) : Engine v := { e with TERMINAL := true }

/-- `PADDED <- 0`, `TERMINAL <- 0`: the flags belong to the stream, and START clears them (R32, R172). -/
def Engine.clearFlags {v : Variant} (e : Engine v) : Engine v := { e with PADDED := false, TERMINAL := false }

/-- STATUS: bit 0 BUSY, bit 1 DONE, bit 2 ERR, bits 7:3 zero (R35). -/
def Engine.status {v : Variant} (e : Engine v) : BitVec 8 :=
  if e.busy then 0x01#8
  else if e.inPhase .done then 0x02#8
  else if e.inPhase .error then 0x04#8
  else 0x00#8

end Sys2Proof.Machine
end

