-- ==== Sys2Proof/Machine/Assembler.lean ====
section
/-! DEFINITION. The Block Assembler: CLRBUF, READ, PAD (spec/42_block_assembler.md R134, R135, R138). -/

namespace Sys2Proof.Machine

/-- CLRBUF on its instance (R134). -/
def Engine.clrbufStep {v : Variant} (e : Engine v) : Engine v :=
  { e.bufClear with CNT := 0 }.setPhase .read

/-- READ lines 9 and 10: the bytes go to `BUF[CNT ..]`, both counts rise, and the block is full or not (R135). -/
def Engine.takeBytes {v : Variant} (e : Engine v) (d : List Byte) (h : e.CNT.val + d.length ≤ v.B) : Engine v :=
  { e.bufWriteBytes e.CNT.val d h with
    CNT := ⟨e.CNT.val + d.length, Nat.lt_succ_of_le h⟩
    BC := e.BC + BitVec.ofNat v.BCW d.length }.setPhase
      (if e.CNT.val + d.length = v.B then .pad else .read)

/-- READ lines 3 to 10: what an instance does with the source's answer. The checks are made in the order of the lines,
which is their priority (R135, R197). -/
def Engine.readAnswer {v : Variant} (e : Engine v) (a : SrcAnswer) : Engine v :=
  match a with
  | .err kind => e.raise (.srcIoFailure kind)
  | .data d =>
    if h : e.requestSize < d.length then e.raise .srcProtocol
    else if 0 < d.length ∧ e.PADDED = true then e.raise .srcProtocol
    else if d.length = 0 then e.setPhase .pad
    else if 2 ^ (v.BCW - 3) ≤ e.BC.toNat + d.length then e.raise .lengthOverflow
    else e.takeBytes d (by
      have := e.CNT.isLt
      simp only [Engine.requestSize] at h
      omega)

/-- PAD lines 2 to 4: the marker `0x80` goes after the last stream byte, once per stream (R138). -/
def Engine.padMarker {v : Variant} (e : Engine v) (h : e.CNT.val < v.B) : Engine v :=
  if e.PADDED = false then (e.bufWrite ⟨e.CNT.val, h⟩ 0x80#8).setPadded else e

/-- PAD lines 5 to 7: the length field `BC * 8`, big-endian in the last `LB` bytes, if there is room for it (R138). -/
def Engine.padLength {v : Variant} (e : Engine v) : Engine v :=
  if e.CNT.val < v.B - v.LB then
    (e.memWrite (v.B - v.LB) v.LB (e.BC.toNat * 8) (lengthField_in_block v)).setTerminal
  else e

/-- PAD on its instance (R138). A full block is left as it is. -/
def Engine.padStep {v : Variant} (e : Engine v) : Engine v :=
  (if h : e.CNT.val < v.B then (e.padMarker h).padLength else e).setPhase .parse

/-- CLRBUF (R134). -/
def execClrbuf (s : State) : Host.Outcome State Fault Refusal := .next (s.onCur fun _ e => e.clrbufStep)

/-- READ (R135): one request on the instance's port SRC. The step includes the source's answer (R170); while the source
does not answer, the instance stays in READ and nothing changes (R177, U11; log entry 10). -/
def execRead (s : State) : Host.Outcome State Fault Refusal :=
  let p := s.port s.cur
  let n := (s.engine s.cur).requestSize
  match p.source.answer n with
  | none => .next s
  | some (a, src) =>
    .next ((s.setPort s.cur ⟨src, p.requests ++ [n]⟩).setEngine s.cur ((s.engine s.cur).readAnswer a))

/-- PAD (R138). -/
def execPad (s : State) : Host.Outcome State Fault Refusal := .next (s.onCur fun _ e => e.padStep)

end Sys2Proof.Machine
end

