-- ==== Sys2Proof/Machine/Scheduler.lean ====
section
/-! DEFINITION. The Block Parser and the Message Scheduler: PARSE, EXPAND (spec/43_parser_scheduler.md R150, R152). -/

namespace Sys2Proof.Machine

/-- The Parsed Block of what BUF holds: word `i` is `MemRead(WB * i, WB)` (R150). -/
def Engine.parsed {v : Variant} (e : Engine v) : Vector (BitVec v.W) 16 :=
  Vector.ofFn fun i : Fin 16 => BitVec.ofNat v.W (e.memRead (v.WB * i.val) v.WB (slice_in_block v i))

/-- The first `16 + k` entries of the schedule, computed in increasing order: with `i = 16 + k`, entry `i` is
`lower_sigma1(WS[i-2]) + WS[i-7] + lower_sigma0(WS[i-15]) + WS[i-16]` (R152). -/
def scheduleTo (v : Variant) (m : Vector (BitVec v.W) 16) : (k : Nat) → Vector (BitVec v.W) (16 + k)
  | 0 => m
  | k + 1 =>
    let ws := scheduleTo v m k
    ws.push (lowerSigma1 v ws[14 + k] + ws[9 + k] + lowerSigma0 v ws[1 + k] + ws[k])

/-- The message schedule of a Parsed Block (R152). -/
def expand (v : Variant) (m : Vector (BitVec v.W) 16) : Vector (BitVec v.W) v.N :=
  (scheduleTo v m (v.N - 16)).cast (schedule_length v)

/-- PARSE on its instance (R150). -/
def Engine.parseStep {v : Variant} (e : Engine v) : Engine v := { e with M := e.parsed }.setPhase .expand

/-- EXPAND on its instance (R152). -/
def Engine.expandStep {v : Variant} (e : Engine v) : Engine v := { e with WS := expand v e.M }.setPhase .load

/-- PARSE (R150). -/
def execParse (s : State) : Host.Outcome State Fault Refusal := .next (s.onCur fun _ e => e.parseStep)

/-- EXPAND (R152). -/
def execExpand (s : State) : Host.Outcome State Fault Refusal := .next (s.onCur fun _ e => e.expandStep)

end Sys2Proof.Machine
end

