-- ==== Sys2Proof/Machine/Compress.lean ====
section
/-! DEFINITION. The Compression Round Function: LOAD, ROUND, FOLD (spec/44_round_function.md R160, R161, R163). -/

namespace Sys2Proof.Machine

/-- `T1 = R[7] + upper_sigma1(R[4]) + choose(R[4], R[5], R[6]) + K[T] + WS[T]` (R161). -/
def temp1 (v : Variant) (r : Vector (BitVec v.W) 8) (k w : BitVec v.W) : BitVec v.W :=
  r[7] + upperSigma1 v r[4] + choose r[4] r[5] r[6] + k + w

/-- `T2 = upper_sigma0(R[0]) + majority(R[0], R[1], R[2])` (R161). -/
def temp2 (v : Variant) (r : Vector (BitVec v.W) 8) : BitVec v.W :=
  upperSigma0 v r[0] + majority r[0] r[1] r[2]

/-- The working registers after one round: all eight are written at once from the values on entry (R161). -/
def roundFn (v : Variant) (r : Vector (BitVec v.W) 8) (k w : BitVec v.W) : Vector (BitVec v.W) 8 :=
  #v[temp1 v r k w + temp2 v r, r[0], r[1], r[2], r[3] + temp1 v r k w, r[4], r[5], r[6]]

/-- Word by word addition of the working registers to the Hash State (R163). -/
def addWords {w : Nat} (h r : Vector (BitVec w) 8) : Vector (BitVec w) 8 :=
  Vector.ofFn fun k : Fin 8 => h[k.val] + r[k.val]

/-- LOAD on its instance (R160). -/
def Engine.loadStep {v : Variant} (e : Engine v) : Engine v :=
  { e with R := e.H, SEQ := ⟨Phase.round.code, 0#7⟩ }

/-- ROUND on its instance, with an index below `N` (R161). -/
def Engine.roundStep {v : Variant} (e : Engine v) (t : BitVec 7) (h : t.toNat < v.N) : Engine v :=
  { e with
    R := roundFn v e.R (roundConstant v t h) (e.scheduleWord t h)
    SEQ := ⟨(if t.toNat + 1 = v.N then Phase.fold else Phase.round).code, t + 1#7⟩ }

/-- FOLD on its instance; TERMINAL chooses the next phase (R163). -/
def Engine.foldStep {v : Variant} (e : Engine v) : Engine v :=
  { e with H := addWords e.H e.R }.setPhase (if e.TERMINAL = true then .emit else .clrbuf)

/-- LOAD (R160). -/
def execLoad (s : State) : Host.Outcome State Fault Refusal := .next (s.onCur fun _ e => e.loadStep)

/-- ROUND (R161). An index that is not below `N` has no `K[T]` and no `WS[T]`; ROUND is never entered so (R87 c, U7), and
the model stops there (log entry 13). -/
def execRound (t : BitVec 7) (s : State) : Host.Outcome State Fault Refusal :=
  if h : t.toNat < s.cur.N then .next (s.setEngine s.cur ((s.engine s.cur).roundStep t h))
  else .fault .roundIndexOutOfRange

/-- FOLD (R163). -/
def execFold (s : State) : Host.Outcome State Fault Refusal := .next (s.onCur fun _ e => e.foldStep)

end Sys2Proof.Machine
end

