-- ==== Sys2Proof/Machine/Driver.lean ====
section
/-! DEFINITION. The Digest Accumulator, the host commands and the hold phases: EMIT, START, CLEAR, IDLE, DONE, ERROR
(spec/45_digest_driver.md R172, R173, R175, R176). -/

namespace Sys2Proof.Machine

/-- The eight words of a Hash State as big-endian bytes: byte `WB*k + j` is `(H[k] >> (8*(WB-1-j))) & 0xFF` (R175). -/
def serialize (v : Variant) (h : Vector (BitVec v.W) 8) : Vector Byte v.DB :=
  Vector.ofFn fun i : Fin v.DB =>
    ((h[i.val / v.WB]'(digestWord_lt v i)) >>> (8 * (v.WB - 1 - i.val % v.WB))).setWidth 8

/-- EMIT on its instance (R175). -/
def Engine.emitStep {v : Variant} (e : Engine v) : Engine v := { e with DIGEST := serialize v e.H }.setPhase .done

/-- START on its instance (R172); what U1 calls unspecified after START holds any value (log entry 3). -/
def Engine.startStep {v : Variant} (e : Engine v) (k : Nat) : Engine v :=
  { ((e.unspecifyScratch k).clearFlags).leaveError .clrbuf with H := H0 v, BC := 0 }

/-- EMIT (R175). -/
def execEmit (s : State) : Host.Outcome State Fault Refusal := .next (s.onCur fun _ e => e.emitStep)

/-- START (R172). It is taken only in a hold phase; offered to a busy instance it has no effect (R82). -/
def execStart (v : Variant) (s : State) : Host.Outcome State Fault Refusal :=
  if (s.engine v).holds then
    .next (s.setEngine v ((s.engine v).startStep s.freeCount)).drawFree
  else .next s

/-- CLEAR (R173). It is taken only in a hold phase; offered to a busy instance it has no effect (R82). -/
def execClear (v : Variant) (s : State) : Host.Outcome State Fault Refusal :=
  if (s.engine v).holds then
    .next (s.setEngine v ((s.engine v).toIdle s.freeCount)).drawFree
  else .next s

/-- The hold phase IDLE: no state change (R176). -/
def execIdle (s : State) : Host.Outcome State Fault Refusal := .next s

/-- The hold phase DONE: no state change (R176). -/
def execDone (s : State) : Host.Outcome State Fault Refusal := .next s

/-- The hold phase ERROR: no state change (R176). -/
def execError (s : State) : Host.Outcome State Fault Refusal := .next s

end Sys2Proof.Machine
end

