-- ==== Sys2Proof/Machine/HostPort.lean ====
section
/-! DEFINITION. The host's side: register reads (spec/10_state.md R38), the hardware reset (spec/70_reset_and_hazards.md
R220, R221), what the host does in its turn, and the program lines of spec/30_encoding.md R89. -/

namespace Sys2Proof.Machine

/-- `HostRead(inst, reg)` on an instance (R38): STATUS, CAUSE with bits 7:2 zero, ERRKIND, and DIGEST in the DONE phase;
every other read is refused (U3, U4). It changes no state. -/
def Engine.hostRead {v : Variant} (e : Engine v) (reg : BitVec 8) : HostReadAnswer :=
  if reg = 0x00#8 then .value e.status
  else if reg = 0x01#8 then .value (e.CAUSE.setWidth 8)
  else if reg = 0x02#8 then .value e.ERRKIND
  else if h : 0x40 ≤ reg.toNat ∧ reg.toNat < 0x40 + v.DB then
    if e.inPhase .done then .value (e.DIGEST[reg.toNat - 0x40]'(by omega)) else .refused .digestNotReady
  else .refused .reservedRegister

/-- `HostRead(inst, reg)` (R38). -/
def hostRead (s : State) (v : Variant) (reg : BitVec 8) : HostReadAnswer := (s.engine v).hostRead reg

/-- The hardware reset: both instances in IDLE with no error, the rest of them unspecified; the host and the sources are
not part of CORE and are left as they are (R220, R221; log entry 4). -/
def hardwareReset (s : State) : State :=
  ((s.setEngine .e256 (s.e256.toIdle s.freeCount)).setEngine .e512 (s.e512.toIdle s.freeCount)).drawFree

/-- The effect of one act of the host, apart from taking it off the host's list. -/
def hostEffect (s : State) : HostAct → State
  | .offer w => s.setCmd (some w)
  | .withdraw => s.setCmd none
  | .read v reg => s.logRead ⟨v, reg, hostRead s v reg⟩
  | .waitIdle _ => s
  | .attach v src => s.setPort v ⟨src, []⟩
  | .reset => hardwareReset s

/-- The act is a WAIT on an instance that is still busy: the host goes on polling (R89). -/
def HostAct.waits (s : State) : HostAct → Bool
  | .offer _ => false
  | .withdraw => false
  | .read _ _ => false
  | .waitIdle v => (s.engine v).busy
  | .attach _ _ => false
  | .reset => false

/-- The host's turn: its next act, or nothing. -/
def hostTurn (s : State) : State :=
  match s.host with
  | [] => s
  | a :: rest => if a.waits s then s else (hostEffect s a).setHost rest

/-- The host has something to do and is not polling. -/
def hostReady (s : State) : Bool :=
  match s.host with
  | [] => false
  | a :: _ => !a.waits s

/-- The line `START.<v>` (R89). -/
def lineStart (v : Variant) : List HostAct := [.offer (cmdWord 1#3 v)]

/-- The line `CLEAR.<v>` (R89). -/
def lineClear (v : Variant) : List HostAct := [.offer (cmdWord 2#3 v)]

/-- The line `WAIT.<v>` (R89). -/
def lineWait (v : Variant) : List HostAct := [.waitIdle v]

/-- The line `RDDIGEST.<v>`: `HostRead(E<v>, 0x40 + i)` for `i = 0 .. DB-1`, in order (R89). -/
def lineRdDigest (v : Variant) : List HostAct := (List.range v.DB).map fun i => .read v (BitVec.ofNat 8 (0x40 + i))

/-- The line `HASH.<v>` (R89). -/
def lineHash (v : Variant) : List HostAct := lineStart v ++ lineWait v ++ lineRdDigest v

/-- The directives `.stream`, `.chunks` and `.err` of one instance, together: the source they describe is attached
(R89). -/
def lineStream (v : Variant) (s : List Byte) (chunks : List Nat) (errs : List (Nat × BitVec 8)) : List HostAct :=
  [.attach v (.stream s chunks errs 0)]

end Sys2Proof.Machine
end

