-- ==== Sys2Proof/Machine/Dispatch.lean ====
section
/-! DEFINITION. What each instruction does: one arm per constructor of Instr, one direct call of its meaning. -/

namespace Sys2Proof.Machine

def exec (i : Instr) (s : State) : Host.Outcome State Fault Refusal :=
  match i with
  | .start v => Sys2Proof.Machine.execStart v s
  | .clear v => Sys2Proof.Machine.execClear v s
  | .idle => Sys2Proof.Machine.execIdle s
  | .clrbuf => Sys2Proof.Machine.execClrbuf s
  | .read => Sys2Proof.Machine.execRead s
  | .pad => Sys2Proof.Machine.execPad s
  | .parse => Sys2Proof.Machine.execParse s
  | .expand => Sys2Proof.Machine.execExpand s
  | .load => Sys2Proof.Machine.execLoad s
  | .round t => Sys2Proof.Machine.execRound t s
  | .fold => Sys2Proof.Machine.execFold s
  | .emit => Sys2Proof.Machine.execEmit s
  | .done => Sys2Proof.Machine.execDone s
  | .error => Sys2Proof.Machine.execError s

end Sys2Proof.Machine
end

