-- ==== Sys2Proof/Machine/Sequencer.lean ====
section
/-! DEFINITION. Who moves next, which instruction the step performs, and how a word is put where the next step finds it
(spec/45_digest_driver.md R170; spec/30_encoding.md R80, R82). -/

namespace Sys2Proof.Machine

/-- The host command the machine takes now: the word on port CMD, if it is defined and the instance it addresses holds
(R82, R87 a). It is taken at the first point where the phase is a hold phase, before anything else moves (log entry 7). -/
def commandTaken (s : State) : Option Instr :=
  match s.cmd with
  | none => none
  | some w =>
    match decodeCmd w with
    | .error _ => none
    | .ok i =>
      match commandTarget i with
      | none => none
      | some v => if (s.engine v).holds then some i else none

/-- The agent that moves next when no command is taken: the head of the schedule. When the schedule is used up: the host if
it has something to do; else the other instance if it is busy; else the instance that moved last (U14; log entry 6). -/
def nextAgent (s : State) : Agent :=
  match s.schedule with
  | a :: _ => a
  | [] =>
    if hostReady s then .host
    else if (s.engine s.cur.other).busy then .engine s.cur.other
    else .engine s.cur

/-- The state in which an agent starts its move: its place in the schedule is used up. -/
def advance (s : State) : State := { s with schedule := s.schedule.tail }

/-- The state in which an instance performs its micro-operation: it is the one whose SEQ is performed. -/
def select (s : State) (v : Variant) : State := { advance s with cur := v }

/-- The instruction an instance performs next: a micro-operation is not fetched, it is decoded from SEQ (R80). -/
def nextInstr (s : State) (v : Variant) : Except DecodeError Instr := decodeSeq (s.engine v).SEQ.toWord

/-- Makes an instance hold, if it does not: the phase becomes IDLE. -/
def Engine.forceHold {v : Variant} (e : Engine v) : Engine v := if e.holds then e else e.setPhase .idle

/-- Puts a command word on port CMD so that the next step takes it (log entry 16). -/
def placeCommand (s : State) (w : BitVec 8) : State :=
  match decodeCmd w with
  | .error _ => s.setCmd (some w)
  | .ok i =>
    match commandTarget i with
    | none => s.setCmd (some w)
    | some v => (s.setEngine v (s.engine v).forceHold).setCmd (some w)

/-- Puts a sequencer word into the SEQ of E512 and makes that instance move next, with nothing on port CMD. E512 is the
instance that can perform every round index the spec admits, 0 to 79 (log entry 16). -/
def placeSeq (s : State) (w : BitVec 11) : State :=
  { s with
    e512 := { s.e512 with SEQ := Seq.ofWord w }
    cmd := none
    schedule := .engine .e512 :: s.schedule }

end Sys2Proof.Machine
end

