-- ==== Sys2Proof/Machine/Step.lean ====
section
/-! DEFINITION. One step of the machine. -/

namespace Sys2Proof.Machine

/-- One step: a command on port CMD that can be taken is taken (R82), and the port is then free, so that it is never taken
twice; otherwise the next agent moves: the host does its next act, or an instance performs the micro-operation that its
SEQ names (R80, R170). A phase code 12 to 15 has no meaning, and the machine stops (R87 b). -/
def step (s : State) : Host.Outcome State Fault Refusal :=
  match commandTaken s with
  | some i => exec i (s.setCmd none)
  | none =>
    match nextAgent s with
    | .host => .next (hostTurn (advance s))
    | .engine v =>
      match nextInstr s v with
      | .ok i => exec i (select s v)
      | .error _ => .fault .unreachablePhase

/-- The state with an instruction word, numbered as spec/opcode_table.json numbers it, stored where the next step finds it:
a command word on port CMD, a sequencer word in a SEQ (log entry 16). A number that is no word of its format changes
nothing. -/
def State.withFetchWord (s : State) (nbits w : Nat) : State :=
  match tableWord nbits w with
  | .ok (.cmd c) => placeCommand s c
  | .ok (.seq q) => placeSeq s q
  | .error _ => s

end Sys2Proof.Machine
end

