-- ==== Sys2Proof/Machine/Reference.lean ====
section
/-! DEFINITION. The reference function `SHA2(P, s)` (spec/45_digest_driver.md R179) and the two pure functions of the output
contract (R182, R183). No step of the machine uses this file: it is the right-hand side of claims. -/

namespace Sys2Proof.Machine

/-- How many zero bytes follow the marker: the smallest `z` that makes the padded length a multiple of `B`, that is
`(B - LB - 1 - L) mod B` (R131). -/
def padZeros (v : Variant) (len : Nat) : Nat := (v.B - v.LB - 1 + (v.B - len % v.B)) % v.B

/-- `pad(s) = s || 0x80 || 0x00^z || BE_LB(L * 8)` (R131, R179). R179 speaks of streams of fewer than `2^(BCW-3)` bytes
only; for a longer one the length field here is the bit length modulo `2^(8*LB)` (DESIGN CHOICE, log entry 27). -/
def padMessage (v : Variant) (s : List Byte) : List Byte :=
  s ++ [0x80#8] ++ List.replicate (padZeros v s.length) 0x00#8 ++ beBytes v.LB (s.length * 8)

/-- Byte `j` of block `k` lies in the byte string that is cut into blocks of `size` bytes. -/
theorem block_byte_lt {len size k j : Nat} (hk : k < len / size) (hj : j < size) : size * k + j < len :=
  calc size * k + j < size * k + size := Nat.add_lt_add_left hj _
    _ = size * (k + 1) := (Nat.mul_succ size k).symm
    _ ≤ size * (len / size) := Nat.mul_le_mul_left _ hk
    _ ≤ len := Nat.mul_div_le len size

/-- The blocks of the padded message, consecutive pieces of exactly `B` bytes (R179). -/
def messageBlocks (v : Variant) (s : List Byte) : List (Vector Byte v.B) :=
  List.ofFn fun k : Fin ((padMessage v s).length / v.B) =>
    Vector.ofFn fun j : Fin v.B => (padMessage v s)[v.B * k.val + j.val]'(block_byte_lt k.isLt j.isLt)

/-- `m`: how many blocks a stream of `len` bytes takes (R139, R179). -/
def blockCount (v : Variant) (len : Nat) : Nat :=
  len / v.B + (if len % v.B ≤ v.B - v.LB - 1 then 1 else 2)

/-- `parse(b)`, of a block of exactly `B` bytes: its type admits no other (R179, R196). -/
def parseBlock (v : Variant) (b : Vector Byte v.B) : Vector (BitVec v.W) 16 :=
  Vector.ofFn fun i : Fin 16 => BitVec.ofNat v.W (beValue (List.ofFn fun j : Fin v.WB =>
    b[v.WB * i.val + j.val]'(Nat.lt_of_lt_of_le (Nat.add_lt_add_left j.isLt _) (slice_in_block v i))))

/-- `R_k`: the working registers after `k` rounds from `r` (R162, R179). -/
def roundsTo (v : Variant) (ws : Vector (BitVec v.W) v.N) (r : Vector (BitVec v.W) 8) :
    (k : Nat) → k ≤ v.N → Vector (BitVec v.W) 8
  | 0, _ => r
  | k + 1, h => roundFn v (roundsTo v ws r k (by omega)) (K v)[k] ws[k]

/-- All `N` rounds over a schedule (R162). -/
def allRounds (v : Variant) (ws : Vector (BitVec v.W) v.N) (r : Vector (BitVec v.W) 8) : Vector (BitVec v.W) 8 :=
  roundsTo v ws r v.N (Nat.le_refl _)

/-- `compress(H, b)`, of a block of exactly `B` bytes (R179, R196). -/
def compress (v : Variant) (h : Vector (BitVec v.W) 8) (b : Vector Byte v.B) : Vector (BitVec v.W) 8 :=
  addWords h (allRounds v (expand v (parseBlock v b)) h)

/-- `SHA2(P, s)`, for a stream of fewer than `2^(BCW-3)` bytes (R179). Its value for a longer one is the model's (DESIGN
CHOICE, log entry 27). -/
def sha2 (v : Variant) (s : List Byte) : Vector Byte v.DB :=
  serialize v ((messageBlocks v s).foldl (compress v) (H0 v))

/-- The sixteen hexadecimal digits (R182). -/
def hexDigits : Vector Char 16 :=
  #v['0', '1', '2', '3', '4', '5', '6', '7', '8', '9', 'a', 'b', 'c', 'd', 'e', 'f']

/-- The digit of four bits (R182). -/
def hexDigit (n : BitVec 4) : Char := hexDigits[n.toNat]'(n.isLt)

/-- `Hex(d)`: two digits a byte, the upper four bits first (R182). -/
def hex : List Byte → List Char
  | [] => []
  | b :: bs => hexDigit (b.extractLsb' 4 4) :: hexDigit (b.extractLsb' 0 4) :: hex bs

/-- The four bits of a digit. -/
def unhexDigit (c : Char) : Option (BitVec 4) :=
  (hexDigits.toList.idxOf? c).map fun i => BitVec.ofNat 4 i

/-- `Unhex`, on strings of pairs of digits (R182). -/
def unhex : List Char → Option (List Byte)
  | [] => some []
  | [_] => none
  | c :: d :: cs =>
    match unhexDigit c, unhexDigit d, unhex cs with
    | some hi, some lo, some bs => some ((hi ++ lo) :: bs)
    | _, _, _ => none

/-- Equality of two digests of one variant; digests of different variants have different types (R183). -/
def digestEq {v : Variant} (a b : Vector Byte v.DB) : Bool := decide (a = b)

end Sys2Proof.Machine
end

