-- ==== Sys2Proof/Safety.lean ====
section
/-! DEFINITION. The terms claims are stated in: when a run is over and how (spec/45_digest_driver.md R178), the transition
table (R171), conforming sources (spec/20_memory.md R57), frames, and the invariant of the machine. -/

namespace Sys2Proof.Machine

/-! ### The end of a run -/

/-- The computation is over: the phase is DONE or ERROR (R178). -/
def Engine.over {v : Variant} (e : Engine v) : Bool := e.inPhase .done || e.inPhase .error

/-- The result of a computation that is over (R178). -/
inductive RunResult (v : Variant) where
  /-- it succeeded, with this digest -/
  | digest (d : Vector Byte v.DB)
  /-- it failed, with this CAUSE and ERRKIND; there is no digest -/
  | failure (cause : BitVec 2) (kind : BitVec 8)
deriving DecidableEq, Repr

/-- The result an instance holds, if its computation is over (R178). -/
def Engine.result {v : Variant} (e : Engine v) : Option (RunResult v) :=
  if e.inPhase .done then some (.digest e.DIGEST)
  else if e.inPhase .error then some (.failure e.CAUSE e.ERRKIND)
  else none

/-! ### The transition table -/

/-- Every way a micro-operation changes the phase, from and to (R171). START and CLEAR are the two other rows. -/
def transitions : List (Phase × Phase) :=
  [(.clrbuf, .read), (.read, .read), (.read, .pad), (.read, .error), (.pad, .parse), (.parse, .expand), (.expand, .load),
   (.load, .round), (.round, .round), (.round, .fold), (.fold, .clrbuf), (.fold, .emit), (.emit, .done)]

/-- The phase of an instance is one of these. -/
def Engine.inAny {v : Variant} (e : Engine v) (ps : List Phase) : Bool := ps.any fun p => e.inPhase p

/-! ### Sources -/

/-- The source holds the stream `str` and gives at least one byte to every request it meets before the end; it may err
(R57). -/
def Source.HoldsStream (str : List Byte) : Source → Prop
  | .script _ => False
  | .stream rest chunks _ _ => rest = str ∧ ∀ c ∈ chunks, 1 ≤ c

/-- The source will never answer `Err`. -/
def Source.NeverErrs : Source → Prop
  | .script answers => ∀ a ∈ answers, ∃ d, a = .data d
  | .stream _ _ errs asked => ∀ i, asked ≤ i → errs.lookup i = none

/-- The bytes of an answer, none for an `Err`. -/
def SrcAnswer.bytes : SrcAnswer → List Byte
  | .data d => d
  | .err _ => []

/-! ### Frames -/

/-- The elements of an instance. -/
inductive Field where
  | SEQ
  | R
  | H
  | M
  | WS
  | DIGEST
  | BUF
  | CNT
  | BC
  | PADDED
  | TERMINAL
  | CAUSE
  | ERRKIND
deriving DecidableEq, Repr

/-- The element is the same in both. Equal Block Buffers read the same at every address. -/
def Engine.SameField {v : Variant} (e e' : Engine v) : Field → Prop
  | .SEQ => e'.SEQ = e.SEQ
  | .R => e'.R = e.R
  | .H => e'.H = e.H
  | .M => e'.M = e.M
  | .WS => e'.WS = e.WS
  | .DIGEST => e'.DIGEST = e.DIGEST
  | .BUF => e'.BUF = e.BUF
  | .CNT => e'.CNT = e.CNT
  | .BC => e'.BC = e.BC
  | .PADDED => e'.PADDED = e.PADDED
  | .TERMINAL => e'.TERMINAL = e.TERMINAL
  | .CAUSE => e'.CAUSE = e.CAUSE
  | .ERRKIND => e'.ERRKIND = e.ERRKIND

/-- Every element but the listed ones is the same. -/
def Engine.SameExcept {v : Variant} (fs : List Field) (e e' : Engine v) : Prop := ∀ f, f ∉ fs → e.SameField e' f

/-- The phases whose micro-operation writes an element (R20 to R37). START, CLEAR and the hardware reset write too. -/
def writers : Field → List Phase
  | .SEQ => [.clrbuf, .read, .pad, .parse, .expand, .load, .round, .fold, .emit]
  | .R => [.load, .round]
  | .H => [.fold]
  | .M => [.parse]
  | .WS => [.expand]
  | .DIGEST => [.emit]
  | .BUF => [.clrbuf, .read, .pad]
  | .CNT => [.clrbuf, .read]
  | .BC => [.read]
  | .PADDED => [.pad]
  | .TERMINAL => [.pad]
  | .CAUSE => [.read]
  | .ERRKIND => [.read]

/-- Nothing outside the instance `v` differs, but perhaps how many free values have been drawn. -/
structure SameElsewhere (v : Variant) (s t : State) : Prop where
  other : ∀ u, u ≠ v → t.engine u = s.engine u
  port : ∀ u, t.port u = s.port u
  cmd : t.cmd = s.cmd
  host : t.host = s.host
  hostLog : t.hostLog = s.hostLog
  schedule : t.schedule = s.schedule
  cur : t.cur = s.cur

/-- Nothing but the instance `v` differs. -/
structure OnlyEngine (v : Variant) (s t : State) : Prop extends SameElsewhere v s t where
  freeCount : t.freeCount = s.freeCount

/-! ### The invariant -/

/-- What holds of an instance at reset and after every step. Each field names the rule it is. -/
structure Engine.Inv {v : Variant} (e : Engine v) : Prop where
  /-- PHASE is one of the twelve codes (R84, R87 b) -/
  phase_legal : e.SEQ.PHASE.toNat ≤ 11
  /-- T never exceeds N (R25) -/
  index_le : e.SEQ.T.toNat ≤ v.N
  /-- in ROUND the index is below N (R25, R87 c) -/
  index_round : e.inPhase .round → e.SEQ.T.toNat < v.N
  /-- T is N from the last ROUND on (R25) -/
  index_after : e.inAny [.fold, .emit, .done] → e.SEQ.T.toNat = v.N
  /-- the Block Buffer is canonical and within its bounds -/
  buf_wf : Memory.wf v.B e.BUF = true
  /-- ERROR always has a cause (R195) -/
  cause_error : e.inPhase .error → e.CAUSE ≠ 0#2
  /-- and no other phase has one (R36) -/
  cause_none : e.inPhase .error = false → e.CAUSE = 0#2
  /-- ERRKIND is 0 but for a source failure (R37) -/
  errkind : e.CAUSE ≠ 1#2 → e.ERRKIND = 0#8
  /-- BC stays below 2^(BCW-3) (R33, R136) -/
  counter_bound : e.inPhase .idle = false → e.BC.toNat < 2 ^ (v.BCW - 3)
  /-- READ is entered only with room left (R135) -/
  read_room : e.inPhase .read → e.CNT.val < v.B
  /-- bytes from CNT on are the zeros of CLRBUF (R137 b) -/
  tail_zero : e.inAny [.read, .pad] → ∀ a, e.CNT.val ≤ a → Memory.read e.BUF a = 0#8
  /-- once TERMINAL is set no further fetch happens (R139) -/
  not_terminal : e.inAny [.clrbuf, .read, .pad] → e.TERMINAL = false
  /-- after the marker a fetch holds no stream byte (R139) -/
  padded_empty : e.inAny [.read, .pad] → e.PADDED = true → e.CNT.val = 0
  /-- a terminal block has its marker (R138) -/
  terminal_padded : e.inPhase .idle = false → e.TERMINAL = true → e.PADDED = true
  /-- EMIT and DONE follow the terminal block only (R163) -/
  emitted_terminal : e.inAny [.emit, .done] → e.TERMINAL = true
  /-- before the marker, BC and CNT agree modulo the block size (R137 d) -/
  counter_fetch : e.inAny [.read, .pad] → e.PADDED = false → e.BC.toNat % v.B = e.CNT.val % v.B
  /-- and between fetches BC is a whole number of blocks -/
  counter_blocks : e.inAny [.clrbuf, .parse, .expand, .load, .round, .fold] → e.PADDED = false → e.BC.toNat % v.B = 0
  /-- the terminal block carries the bit length (R131, R138) -/
  length_field : e.inAny [.parse, .expand, .load, .round, .fold, .emit, .done] → e.TERMINAL = true →
    Memory.readBE e.BUF (v.B - v.LB) v.LB = e.BC.toNat * 8
  /-- M is the parsed BUF (R27, R150) -/
  parsed : e.inAny [.expand, .load, .round, .fold, .emit, .done] → e.M = e.parsed
  /-- WS is the schedule of M (R28, R152) -/
  expanded : e.inAny [.load, .round, .fold, .emit, .done] → e.WS = expand v e.M
  /-- R is H after T rounds (R162) -/
  rounds : e.inPhase .round → ∀ h : e.SEQ.T.toNat ≤ v.N, e.R = roundsTo v e.WS e.H e.SEQ.T.toNat h
  /-- and after all N rounds when FOLD starts (R162) -/
  rounds_done : e.inPhase .fold → e.R = allRounds v e.WS e.H
  /-- in DONE, DIGEST is H serialised (R175, R178) -/
  digest : e.inPhase .done → e.DIGEST = serialize v e.H

/-- The invariant of the machine: both instances meet theirs. -/
def State.Inv (s : State) : Prop := ∀ v, (s.engine v).Inv

end Sys2Proof.Machine
end

