-- ==== Sys2Proof/Certificates/Slice0/Obligations.lean ====
section
/-! DEFINITION. The statements for the provers. Each docstring names the rule of spec/ it formalises. -/

open Sys2Proof Sys2Proof.Machine

/-! ## Encoding -/

/-- R81, R83, R84: decoding the word of a well-formed instruction gives it back, whatever its operand; and a word that
decodes is the word of its instruction, but for the bits of `T` that a phase other than ROUND ignores (log entry 21). -/
def Obligations.DecodeAndEncodeAgree : Prop :=
  (∀ i : Instr, i.wf = true → decode (encode i) = .ok i) ∧
  (∀ (w : BitVec 8) (i : Instr), decode (.cmd w) = .ok i → encode i = .cmd w) ∧
  (∀ (w : BitVec 11) (i : Instr), decode (.seq w) = .ok i →
    encode i = .seq w ∨ (seqPhase w ≠ 7#4 ∧ encode i = .seq (seqPhase w ++ 0#7)))

/-- R81, R87 a: the four defined command words, and every other word is undefined. -/
def Obligations.FourCommandWordsAreDefined : Prop :=
  decodeCmd 0x02#8 = .ok (.start .e256) ∧ decodeCmd 0x03#8 = .ok (.start .e512) ∧
  decodeCmd 0x04#8 = .ok (.clear .e256) ∧ decodeCmd 0x05#8 = .ok (.clear .e512) ∧
  ∀ w : BitVec 8, w ≠ 0x02#8 → w ≠ 0x03#8 → w ≠ 0x04#8 → w ≠ 0x05#8 → decodeCmd w = .error (.undefinedCommand w)

/-- R83, R84, R87 b: PHASE alone selects what a sequencer word stands for, T is an operand of ROUND only, and codes 12 to
15 stand for nothing. -/
def Obligations.SequencerWordsDecodeByPhase : Prop :=
  ∀ w : BitVec 11,
    (seqPhase w).toNat * 128 + (seqT w).toNat = w.toNat ∧
    (seqPhase w = 7#4 → decodeSeq w = .ok (.round (seqT w))) ∧
    (12 ≤ (seqPhase w).toNat → decodeSeq w = .error (.unreachablePhase (seqPhase w))) ∧
    ((seqPhase w).toNat < 12 → seqPhase w ≠ 7#4 → ∀ w' : BitVec 11, seqPhase w' = seqPhase w →
      decodeSeq w' = decodeSeq w ∧ ∃ i, decodeSeq w = .ok i)

/-- R81, R84: every defined command word, and a word of each of the twelve phases, written out from the encoding, decode to
the instructions they stand for. -/
def Obligations.SampleWordsDecode : Prop :=
  decode (.cmd 0b00000010#8) = .ok (.start .e256) ∧ decode (.cmd 0b00000011#8) = .ok (.start .e512) ∧
  decode (.cmd 0b00000100#8) = .ok (.clear .e256) ∧ decode (.cmd 0b00000101#8) = .ok (.clear .e512) ∧
  decode (.seq 0b00000000000#11) = .ok .idle ∧ decode (.seq 0b00011000000#11) = .ok .clrbuf ∧
  decode (.seq 0b00100000000#11) = .ok .read ∧ decode (.seq 0b00111000000#11) = .ok .pad ∧
  decode (.seq 0b01000000000#11) = .ok .parse ∧ decode (.seq 0b01011010000#11) = .ok .expand ∧
  decode (.seq 0b01101000000#11) = .ok .load ∧ decode (.seq 0b01110010001#11) = .ok (.round 17#7) ∧
  decode (.seq 0b10001000000#11) = .ok .fold ∧ decode (.seq 0b10011010000#11) = .ok .emit ∧
  decode (.seq 0b10101000000#11) = .ok .done ∧ decode (.seq 0b10110000000#11) = .ok .error

/-! ## The host commands -/

/-- R172: START, in a hold phase, makes a fresh computation, hides the digest of an earlier one, and touches nothing else
(neither the source nor the host nor the other instance); while the instance is busy it is not
taken. What U1 calls unspecified after START (R, M, WS, DIGEST) is not constrained. That BUF and CNT are kept is log entry 3, and
that exec answers the same state for a busy instance, where no step calls it, is log entry 8 (both DEDUCED). -/
def Obligations.StartBeginsAFreshComputation : Prop :=
  ∀ (s : State) (v : Variant),
    ((s.engine v).holds = true → ∃ t, exec (.start v) s = .next t ∧
      (t.engine v).H = H0 v ∧ (t.engine v).BC = 0 ∧ (t.engine v).PADDED = false ∧ (t.engine v).TERMINAL = false ∧
      (t.engine v).CAUSE = 0#2 ∧ (t.engine v).ERRKIND = 0#8 ∧ (t.engine v).SEQ = ⟨Phase.clrbuf.code, 0#7⟩ ∧
      (t.engine v).status = 0x01#8 ∧
      (∀ i, i < v.DB → hostRead t v (BitVec.ofNat 8 (0x40 + i)) = .refused .digestNotReady) ∧
      (∀ a : Fin v.B, (t.engine v).bufByte a = (s.engine v).bufByte a) ∧ (t.engine v).CNT = (s.engine v).CNT ∧
      SameElsewhere v s t) ∧
    ((s.engine v).holds = false → exec (.start v) s = .next s)

/-- R173: CLEAR, in a hold phase, puts the instance in IDLE with no error and no readable digest and touches nothing
outside it; while the instance is busy it is not taken. The elements that become unspecified are not constrained. That exec
answers the same state for a busy instance, where no step calls it, is log entry 8 (DEDUCED). -/
def Obligations.ClearReturnsToIdle : Prop :=
  ∀ (s : State) (v : Variant),
    ((s.engine v).holds = true → ∃ t, exec (.clear v) s = .next t ∧
      (t.engine v).CAUSE = 0#2 ∧ (t.engine v).ERRKIND = 0#8 ∧ (t.engine v).SEQ = ⟨Phase.idle.code, 0#7⟩ ∧
      (t.engine v).status = 0x00#8 ∧
      (∀ i, i < v.DB → hostRead t v (BitVec.ofNat 8 (0x40 + i)) = .refused .digestNotReady) ∧
      SameElsewhere v s t) ∧
    ((s.engine v).holds = false → exec (.clear v) s = .next s)

/-- R172 (b), R44, U1: whatever two instances held before, a START and the CLRBUF after it leave them equal in every element
but R, M, WS and DIGEST, which are unspecified until they are written. -/
def Obligations.NothingSurvivesStartAndClrbuf : Prop :=
  ∀ (s s' : State) (v : Variant), (s.engine v).holds = true → (s'.engine v).holds = true →
    ∃ t t' u u', exec (.start v) s = .next t ∧ exec (.start v) s' = .next t' ∧
      exec .clrbuf (select t v) = .next u ∧ exec .clrbuf (select t' v) = .next u' ∧
      (u.engine v).SameExcept [.R, .M, .WS, .DIGEST] (u'.engine v)

/-! ## The hold phases -/

/-- R176: in a hold phase the instance changes no state by itself, STATUS, CAUSE, ERRKIND and DIGEST read as the rule says,
and all of it stays so until a command is taken (or the hardware reset is asserted, R221). The values of CAUSE and ERRKIND
in IDLE rest on the invariant of the machine. -/
def Obligations.HoldPhasesKeepAndShowTheirState : Prop :=
  (∀ s, exec .idle s = .next s ∧ exec .done s = .next s ∧ exec .error s = .next s) ∧
  (∀ (s : State) (v : Variant), (s.engine v).Inv → (s.engine v).inPhase .idle = true →
    hostRead s v 0x00#8 = .value 0x00#8 ∧ hostRead s v 0x01#8 = .value 0x00#8 ∧ hostRead s v 0x02#8 = .value 0x00#8 ∧
    ∀ i, i < v.DB → hostRead s v (BitVec.ofNat 8 (0x40 + i)) = .refused .digestNotReady) ∧
  (∀ (s : State) (v : Variant), (s.engine v).inPhase .done = true →
    hostRead s v 0x00#8 = .value 0x02#8 ∧
    ∀ i (h : i < v.DB), hostRead s v (BitVec.ofNat 8 (0x40 + i)) = .value ((s.engine v).DIGEST[i])) ∧
  (∀ (s : State) (v : Variant), (s.engine v).inPhase .error = true →
    hostRead s v 0x00#8 = .value 0x04#8 ∧ hostRead s v 0x01#8 = .value ((s.engine v).CAUSE.setWidth 8) ∧
    hostRead s v 0x02#8 = .value (s.engine v).ERRKIND ∧
    ∀ i, i < v.DB → hostRead s v (BitVec.ofNat 8 (0x40 + i)) = .refused .digestNotReady) ∧
  (∀ (s t : State) (v : Variant), (s.engine v).holds = true → step s = .next t →
    commandTaken s ≠ some (.start v) → commandTaken s ≠ some (.clear v) →
    (nextAgent s = .host → s.host.head? ≠ some .reset) → t.engine v = s.engine v)

/-! ## The Block Assembler -/

/-- R134: CLRBUF. -/
def Obligations.ClrbufZeroesTheBlockBuffer : Prop :=
  ∀ s : State, ∃ t, exec .clrbuf s = .next t ∧
    (∀ a : Fin s.cur.B, (t.engine s.cur).bufByte a = 0x00#8) ∧ (t.engine s.cur).CNT = 0 ∧
    (t.engine s.cur).SEQ = ⟨Phase.read.code, (s.engine s.cur).SEQ.T⟩ ∧
    (s.engine s.cur).SameExcept [.BUF, .CNT, .SEQ] (t.engine s.cur) ∧ OnlyEngine s.cur s t

/-- R135, R136, R190, R194, R197: READ when its source answers, line by line in the order of the checks; one request of
`B - CNT` bytes is made, and a step that raises writes nothing else. -/
def Obligations.ReadFollowsItsLines : Prop :=
  ∀ (s : State) (a : SrcAnswer) (src : Source),
    Memory.wf s.cur.B (s.engine s.cur).BUF = true →
    (s.port s.cur).source.answer (s.cur.B - (s.engine s.cur).CNT.val) = some (a, src) →
    ∃ t, exec .read s = .next t ∧
      (t.port s.cur).source = src ∧
      (t.port s.cur).requests = (s.port s.cur).requests ++ [s.cur.B - (s.engine s.cur).CNT.val] ∧
      (∀ u, u ≠ s.cur → t.port u = s.port u ∧ t.engine u = s.engine u) ∧
      t.cmd = s.cmd ∧ t.host = s.host ∧ t.hostLog = s.hostLog ∧ t.schedule = s.schedule ∧ t.cur = s.cur ∧
      t.freeCount = s.freeCount ∧
      (t.engine s.cur).SEQ.T = (s.engine s.cur).SEQ.T ∧
      match a with
      | .err kind =>
        (t.engine s.cur).SEQ.PHASE = Phase.error.code ∧ (t.engine s.cur).CAUSE = 1#2 ∧ (t.engine s.cur).ERRKIND = kind ∧
        (s.engine s.cur).SameExcept [.SEQ, .CAUSE, .ERRKIND] (t.engine s.cur)
      | .data d =>
        if s.cur.B - (s.engine s.cur).CNT.val < d.length ∨ (0 < d.length ∧ (s.engine s.cur).PADDED = true) then
          (t.engine s.cur).SEQ.PHASE = Phase.error.code ∧ (t.engine s.cur).CAUSE = 2#2 ∧ (t.engine s.cur).ERRKIND = 0#8 ∧
          (s.engine s.cur).SameExcept [.SEQ, .CAUSE, .ERRKIND] (t.engine s.cur)
        else if d.length = 0 then
          (t.engine s.cur).SEQ.PHASE = Phase.pad.code ∧ (s.engine s.cur).SameExcept [.SEQ] (t.engine s.cur)
        else if 2 ^ (s.cur.BCW - 3) ≤ (s.engine s.cur).BC.toNat + d.length then
          (t.engine s.cur).SEQ.PHASE = Phase.error.code ∧ (t.engine s.cur).CAUSE = 3#2 ∧ (t.engine s.cur).ERRKIND = 0#8 ∧
          (s.engine s.cur).SameExcept [.SEQ, .CAUSE, .ERRKIND] (t.engine s.cur)
        else
          (∀ j (h : j < d.length), Memory.read (t.engine s.cur).BUF ((s.engine s.cur).CNT.val + j) = d[j]) ∧
          (∀ b, b < (s.engine s.cur).CNT.val ∨ (s.engine s.cur).CNT.val + d.length ≤ b →
            Memory.read (t.engine s.cur).BUF b = Memory.read (s.engine s.cur).BUF b) ∧
          (t.engine s.cur).CNT.val = (s.engine s.cur).CNT.val + d.length ∧
          (t.engine s.cur).BC.toNat = (s.engine s.cur).BC.toNat + d.length ∧
          ((s.engine s.cur).CNT.val + d.length = s.cur.B → (t.engine s.cur).SEQ.PHASE = Phase.pad.code) ∧
          ((s.engine s.cur).CNT.val + d.length ≠ s.cur.B → (t.engine s.cur).SEQ.PHASE = Phase.read.code) ∧
          (s.engine s.cur).SameExcept [.SEQ, .BUF, .CNT, .BC] (t.engine s.cur)

/-- R177, R227, U11: while its source does not answer, an instance in READ waits, and nothing changes. That the wait is a
step without effect is the model's choice (log entry 10). -/
def Obligations.ReadWaitsForItsSource : Prop :=
  ∀ s : State, (s.port s.cur).source.answer (s.cur.B - (s.engine s.cur).CNT.val) = none → exec .read s = .next s

/-- R194, R195, R190: what an error leaves and what the host sees of it. -/
def Obligations.HostSeesAnErrorAndNoDigest : Prop :=
  ∀ s t : State, (s.engine s.cur).inPhase .read = true → exec .read s = .next t →
    (t.engine s.cur).inPhase .error = true →
    hostRead t s.cur 0x00#8 = .value 0x04#8 ∧
    hostRead t s.cur 0x01#8 = .value ((t.engine s.cur).CAUSE.setWidth 8) ∧
    ((t.engine s.cur).CAUSE = 1#2 ∨ (t.engine s.cur).CAUSE = 2#2 ∨ (t.engine s.cur).CAUSE = 3#2) ∧
    hostRead t s.cur 0x02#8 = .value (t.engine s.cur).ERRKIND ∧
    ((t.engine s.cur).CAUSE ≠ 1#2 → (t.engine s.cur).ERRKIND = 0#8) ∧
    (∀ i, i < s.cur.DB → hostRead t s.cur (BitVec.ofNat 8 (0x40 + i)) = .refused .digestNotReady) ∧
    (t.engine s.cur).SEQ.T = (s.engine s.cur).SEQ.T ∧
    (s.engine s.cur).SameExcept [.SEQ, .CAUSE, .ERRKIND] (t.engine s.cur)

/-- R138, R50: PAD in all its cases; the length field is `BC * 8` in `BCW` bits. -/
def Obligations.PadAppendsMarkerAndLength : Prop :=
  ∀ s : State, Memory.wf s.cur.B (s.engine s.cur).BUF = true →
    ∃ t, exec .pad s = .next t ∧
      (t.engine s.cur).SEQ = ⟨Phase.parse.code, (s.engine s.cur).SEQ.T⟩ ∧
      (s.engine s.cur).SameExcept [.SEQ, .BUF, .PADDED, .TERMINAL] (t.engine s.cur) ∧ OnlyEngine s.cur s t ∧
      ((s.engine s.cur).CNT.val = s.cur.B →
        (s.engine s.cur).SameExcept [.SEQ] (t.engine s.cur)) ∧
      ((s.engine s.cur).CNT.val < s.cur.B →
        (t.engine s.cur).PADDED = true ∧
        ((s.engine s.cur).PADDED = false →
          Memory.read (t.engine s.cur).BUF (s.engine s.cur).CNT.val = 0x80#8)) ∧
      ((s.engine s.cur).CNT.val < s.cur.B - s.cur.LB →
        (t.engine s.cur).TERMINAL = true ∧
        Memory.readBE (t.engine s.cur).BUF (s.cur.B - s.cur.LB) s.cur.LB =
          (s.engine s.cur).BC.toNat * 8 % 2 ^ s.cur.BCW) ∧
      (s.cur.B - s.cur.LB ≤ (s.engine s.cur).CNT.val →
        (t.engine s.cur).TERMINAL = (s.engine s.cur).TERMINAL) ∧
      (∀ b, ¬ (b = (s.engine s.cur).CNT.val ∧ (s.engine s.cur).CNT.val < s.cur.B ∧ (s.engine s.cur).PADDED = false) →
        ¬ (s.cur.B - s.cur.LB ≤ b ∧ b < s.cur.B ∧ (s.engine s.cur).CNT.val < s.cur.B - s.cur.LB) →
        Memory.read (t.engine s.cur).BUF b = Memory.read (s.engine s.cur).BUF b)

/-! ## The Block Parser and the Message Scheduler -/

/-- R150, R50: PARSE; word `i` is the big-endian value of its slice, written out as the sum of R50. -/
def Obligations.ParseReadsBigEndianWords : Prop :=
  ∀ s : State, ∃ t, exec .parse s = .next t ∧
    (∀ i (h : i < 16), ((t.engine s.cur).M[i]).toNat =
      ∑ j : Fin s.cur.WB, (Memory.read (s.engine s.cur).BUF (s.cur.WB * i + j.val)).toNat * 2 ^ (8 * (s.cur.WB - 1 - j.val))) ∧
    (t.engine s.cur).SEQ = ⟨Phase.expand.code, (s.engine s.cur).SEQ.T⟩ ∧
    (s.engine s.cur).SameExcept [.SEQ, .M] (t.engine s.cur) ∧ OnlyEngine s.cur s t

/-- R152: EXPAND; the schedule begins with the Parsed Block and every later entry meets the recurrence. -/
def Obligations.ExpandMeetsTheRecurrence : Prop :=
  ∀ s : State, ∃ t, exec .expand s = .next t ∧
    (∀ i (h : i < 16) (h' : i < s.cur.N), (t.engine s.cur).WS[i] = (s.engine s.cur).M[i]) ∧
    (∀ i (h16 : 16 ≤ i) (h : i < s.cur.N), (t.engine s.cur).WS[i] =
      lowerSigma1 s.cur (t.engine s.cur).WS[i - 2] + (t.engine s.cur).WS[i - 7] +
        lowerSigma0 s.cur (t.engine s.cur).WS[i - 15] + (t.engine s.cur).WS[i - 16]) ∧
    (t.engine s.cur).SEQ = ⟨Phase.load.code, (s.engine s.cur).SEQ.T⟩ ∧
    (s.engine s.cur).SameExcept [.SEQ, .WS] (t.engine s.cur) ∧ OnlyEngine s.cur s t

/-! ## The Compression Round Function -/

/-- R160: LOAD. -/
def Obligations.LoadCopiesTheHashState : Prop :=
  ∀ s : State, ∃ t, exec .load s = .next t ∧
    (∀ k (h : k < 8), (t.engine s.cur).R[k] = (s.engine s.cur).H[k]) ∧
    (t.engine s.cur).SEQ = ⟨Phase.round.code, 0#7⟩ ∧
    (s.engine s.cur).SameExcept [.SEQ, .R] (t.engine s.cur) ∧ OnlyEngine s.cur s t

/-- R161: ROUND; the eight registers and the index are written at once from the values on entry. -/
def Obligations.RoundUpdatesAllRegisters : Prop :=
  ∀ (s : State) (k : BitVec 7) (hk : k.toNat < s.cur.N),
    ∃ t, exec (.round k) s = .next t ∧
      (∀ (r : Vector (BitVec s.cur.W) 8) (t1 t2 : BitVec s.cur.W), r = (s.engine s.cur).R →
        t1 = r[7] + upperSigma1 s.cur r[4] + choose r[4] r[5] r[6] + (K s.cur)[k.toNat] + (s.engine s.cur).WS[k.toNat] →
        t2 = upperSigma0 s.cur r[0] + majority r[0] r[1] r[2] →
        (t.engine s.cur).R[7] = r[6] ∧ (t.engine s.cur).R[6] = r[5] ∧ (t.engine s.cur).R[5] = r[4] ∧
        (t.engine s.cur).R[4] = r[3] + t1 ∧ (t.engine s.cur).R[3] = r[2] ∧ (t.engine s.cur).R[2] = r[1] ∧
        (t.engine s.cur).R[1] = r[0] ∧ (t.engine s.cur).R[0] = t1 + t2) ∧
      (t.engine s.cur).SEQ.T.toNat = k.toNat + 1 ∧
      (k.toNat + 1 = s.cur.N → (t.engine s.cur).SEQ.PHASE = Phase.fold.code) ∧
      (k.toNat + 1 ≠ s.cur.N → (t.engine s.cur).SEQ.PHASE = Phase.round.code) ∧
      (s.engine s.cur).SameExcept [.SEQ, .R] (t.engine s.cur) ∧ OnlyEngine s.cur s t

/-- R87 c, U7: a ROUND whose index is not below N has no meaning, and the machine stops by name. The
fault is the model's (log entry 13). -/
def Obligations.RoundBeyondTheScheduleStops : Prop :=
  ∀ (s : State) (k : BitVec 7), s.cur.N ≤ k.toNat → exec (.round k) s = .fault .roundIndexOutOfRange

/-- R163: FOLD; TERMINAL chooses the next phase. -/
def Obligations.FoldAddsIntoTheHashState : Prop :=
  ∀ s : State, ∃ t, exec .fold s = .next t ∧
    (∀ k (h : k < 8), (t.engine s.cur).H[k] = (s.engine s.cur).H[k] + (s.engine s.cur).R[k]) ∧
    ((s.engine s.cur).TERMINAL = true → (t.engine s.cur).SEQ = ⟨Phase.emit.code, (s.engine s.cur).SEQ.T⟩) ∧
    ((s.engine s.cur).TERMINAL = false → (t.engine s.cur).SEQ = ⟨Phase.clrbuf.code, (s.engine s.cur).SEQ.T⟩) ∧
    (s.engine s.cur).SameExcept [.SEQ, .H] (t.engine s.cur) ∧ OnlyEngine s.cur s t

/-- R162: from LOAD on, round `T` uses `K[T]` and `WS[T]`, and after `k` ROUND steps of an instance that moves alone its
working registers are the reference's `R_k`. That it moves alone is a schedule of the model's own data (log entry 6). -/
def Obligations.RoundLoopComputesTheRounds : Prop :=
  ∀ (s : State) (v : Variant) (k : Nat) (hk : k ≤ v.N), s.cmd = none → (s.engine v).inPhase .load = true →
    ∃ t, Host.Core.run Sys2Proof.core (k + 1)
        ({ s with schedule := List.replicate (k + 1) (.engine v) } : Sys2Proof.Machine.State) = .next t ∧
      (t.engine v).R = roundsTo v (s.engine v).WS (s.engine v).H k hk ∧ (t.engine v).SEQ.T.toNat = k ∧
      (k = v.N → (t.engine v).inPhase .fold = true) ∧ (k ≠ v.N → (t.engine v).inPhase .round = true) ∧
      (s.engine v).SameExcept [.SEQ, .R] (t.engine v)

/-! ## The Digest Accumulator -/

/-- R175: EMIT; byte `j` of word `k` goes to `DIGEST[WB*k + j]`. -/
def Obligations.EmitSerialisesBigEndian : Prop :=
  ∀ s : State, ∃ t, exec .emit s = .next t ∧
    (∀ k j (hk : k < 8) (_ : j < s.cur.WB) (h : s.cur.WB * k + j < s.cur.DB),
      ((t.engine s.cur).DIGEST[s.cur.WB * k + j]).toNat =
        ((s.engine s.cur).H[k]).toNat / 2 ^ (8 * (s.cur.WB - 1 - j)) % 256) ∧
    (t.engine s.cur).SEQ = ⟨Phase.done.code, (s.engine s.cur).SEQ.T⟩ ∧
    (s.engine s.cur).SameExcept [.SEQ, .DIGEST] (t.engine s.cur) ∧ OnlyEngine s.cur s t

/-! ## Word functions -/

/-- R102: bit `i` of `ROTR(x, n)` is bit `(i + n) mod W` of `x`. -/
def Obligations.RotrMovesEveryBit : Prop :=
  ∀ (w : Nat) (x : BitVec w) (n : Amount w) (i : Nat), i < w →
    (rotr x n).getLsbD i = x.getLsbD ((i + n.n) % w)

/-- R103: `SHR(x, n) = floor(x / 2^n)`. -/
def Obligations.ShrDividesByAPowerOfTwo : Prop :=
  ∀ (w : Nat) (x : BitVec w) (n : Amount w), (shr x n).toNat = x.toNat / 2 ^ n.n

/-- R104: choose takes the `y` bit where the `x` bit is 1 and the `z` bit where it is 0, and has the two equal forms. -/
def Obligations.ChooseSelectsBits : Prop :=
  ∀ (w : Nat) (x y z : BitVec w),
    (∀ i, i < w → (choose x y z).getLsbD i = if x.getLsbD i then y.getLsbD i else z.getLsbD i) ∧
    choose x y z = (x &&& y) ||| (~~~x &&& z) ∧ choose x y z = z ^^^ (x &&& (y ^^^ z))

/-- R105: a bit of majority is the value at least two of the three input bits have; it is symmetric and has the equal
form. -/
def Obligations.MajorityTakesTheCommonBit : Prop :=
  ∀ (w : Nat) (x y z : BitVec w),
    (∀ i, i < w → (majority x y z).getLsbD i =
      decide (2 ≤ (x.getLsbD i).toNat + (y.getLsbD i).toNat + (z.getLsbD i).toNat)) ∧
    majority x y z = (x &&& y) ||| (x &&& z) ||| (y &&& z) ∧
    majority x y z = majority y x z ∧ majority x y z = majority x z y

/-- R106 to R109, R125: the four sigma functions of both variants, with their amounts, over Lean's own rotation. -/
def Obligations.SigmaFunctionsHaveTheirAmounts : Prop :=
  (∀ x : BitVec 32,
    upperSigma0 .e256 x = x.rotateRight 2 ^^^ x.rotateRight 13 ^^^ x.rotateRight 22 ∧
    upperSigma1 .e256 x = x.rotateRight 6 ^^^ x.rotateRight 11 ^^^ x.rotateRight 25 ∧
    lowerSigma0 .e256 x = x.rotateRight 7 ^^^ x.rotateRight 18 ^^^ (x >>> 3) ∧
    lowerSigma1 .e256 x = x.rotateRight 17 ^^^ x.rotateRight 19 ^^^ (x >>> 10)) ∧
  (∀ x : BitVec 64,
    upperSigma0 .e512 x = x.rotateRight 28 ^^^ x.rotateRight 34 ^^^ x.rotateRight 39 ∧
    upperSigma1 .e512 x = x.rotateRight 14 ^^^ x.rotateRight 18 ^^^ x.rotateRight 41 ∧
    lowerSigma0 .e512 x = x.rotateRight 1 ^^^ x.rotateRight 8 ^^^ (x >>> 7) ∧
    lowerSigma1 .e512 x = x.rotateRight 19 ^^^ x.rotateRight 61 ^^^ (x >>> 6))

/-- R120: the tables are what the generating rule gives: `K[t] = icbrt(p_t * 2^(3W)) mod 2^W` and
`H0[k] = isqrt(p_k * 2^(2W)) mod 2^W`, with `p_t` the primes in order; and the tables of P256 are the upper halves of the
tables of P512. -/
def Obligations.ConstantsFollowTheGeneratingRule : Prop :=
  (∀ (v : Variant) (t : Nat) (h : t < v.N), ∃ q : Nat,
    q ^ 3 ≤ Nat.nth Nat.Prime t * 2 ^ (3 * v.W) ∧ Nat.nth Nat.Prime t * 2 ^ (3 * v.W) < (q + 1) ^ 3 ∧
    ((K v)[t]).toNat = q % 2 ^ v.W) ∧
  (∀ (v : Variant) (k : Nat) (h : k < 8), ∃ q : Nat,
    q ^ 2 ≤ Nat.nth Nat.Prime k * 2 ^ (2 * v.W) ∧ Nat.nth Nat.Prime k * 2 ^ (2 * v.W) < (q + 1) ^ 2 ∧
    ((H0 v)[k]).toNat = q % 2 ^ v.W) ∧
  (∀ t (h : t < 64), ((K .e256)[t]).toNat = ((K .e512)[t]'(by show t < 80; omega)).toNat / 2 ^ 32) ∧
  (∀ k (h : k < 8), ((H0 .e256)[k]).toNat = ((H0 .e512)[k]).toNat / 2 ^ 32)

/-! ## Memory -/

/-- R50, R51: a big-endian store within the Block Buffer is read back by a big-endian load of the same width, byte `j` of it
is `(x >> (8*(n-1-j))) & 0xFF`, every other byte is as before, and the buffer stays canonical. -/
def Obligations.BigEndianStoreThenLoad : Prop :=
  ∀ (v : Variant) (e : Engine v) (a n x : Nat) (h : a + n ≤ v.B), Memory.wf v.B e.BUF = true →
    (e.memWrite a n x h).memRead a n h = x % 2 ^ (8 * n) ∧
    (∀ j, j < n → (Memory.read (e.memWrite a n x h).BUF (a + j)).toNat = x / 2 ^ (8 * (n - 1 - j)) % 256) ∧
    (∀ b, b < a ∨ a + n ≤ b → Memory.read (e.memWrite a n x h).BUF b = Memory.read e.BUF b) ∧
    Memory.wf v.B (e.memWrite a n x h).BUF = true ∧ e.SameExcept [.BUF] (e.memWrite a n x h)

/-! ## The host's view -/

/-- R35: STATUS in every phase, and it never reads anything but 0x00, 0x01, 0x02, 0x04. -/
def Obligations.StatusIsAViewOfThePhase : Prop :=
  ∀ (v : Variant) (e : Engine v) (p : Phase), e.inPhase p = true →
    e.status.getLsbD 0 = decide (p ∉ [Phase.idle, .done, .error]) ∧
    e.status.getLsbD 1 = decide (p = .done) ∧ e.status.getLsbD 2 = decide (p = .error) ∧
    e.status.extractLsb' 3 5 = 0#5 ∧
    (e.status = 0x00#8 ∨ e.status = 0x01#8 ∨ e.status = 0x02#8 ∨ e.status = 0x04#8)

/-- R38, R36, R37: the host register map, and the read as an act of the host: it is answered by the map and changes no
engine, no port and no word on CMD. Reads the spec leaves unspecified are refused, as U3 and U4 ask of a model. That the
answer is a function of the state and is recorded in a log is log entry 14, that reads are acts of a list log entry 15. -/
def Obligations.HostRegisterMap : Prop :=
  (∀ (s : State) (v : Variant) (reg : BitVec 8),
    (reg = 0x00#8 → hostRead s v reg = .value (s.engine v).status) ∧
    (reg = 0x01#8 → ∃ b, hostRead s v reg = .value b ∧ b.toNat = (s.engine v).CAUSE.toNat) ∧
    (reg = 0x02#8 → hostRead s v reg = .value (s.engine v).ERRKIND) ∧
    (∀ i (h : i < v.DB), reg.toNat = 0x40 + i →
      hostRead s v reg =
        if (s.engine v).inPhase .done then .value ((s.engine v).DIGEST[i]) else .refused .digestNotReady) ∧
    (3 ≤ reg.toNat → reg.toNat < 0x40 ∨ 0x40 + v.DB ≤ reg.toNat → hostRead s v reg = .refused .reservedRegister)) ∧
  (∀ (s : State) (v : Variant) (reg : BitVec 8) (rest : List HostAct), commandTaken s = none → nextAgent s = .host →
    s.host = .read v reg :: rest →
    ∃ t, step s = .next t ∧ t.hostLog = s.hostLog ++ [⟨v, reg, hostRead s v reg⟩] ∧ t.host = rest ∧
      (∀ u, t.engine u = s.engine u ∧ t.port u = s.port u) ∧ t.cmd = s.cmd ∧ t.cur = s.cur ∧ t.freeCount = s.freeCount)

/-- R38, R41, R204: no act of the host but the reset reaches any state of an engine, busy or not, and what each does outside
the engines: offer and withdraw drive port CMD, attach puts a source behind one port SRC, wait polls. The acts are the
model's data (log entries 11 and 15). -/
def Obligations.HostActsReachNoEngineState : Prop :=
  ∀ s : State, commandTaken s = none → nextAgent s = .host → s.host.head? ≠ some .reset →
    ∃ t, step s = .next t ∧ (∀ v, t.engine v = s.engine v) ∧ t.freeCount = s.freeCount ∧ t.cur = s.cur ∧
      (∀ w rest, s.host = .offer w :: rest →
        t.cmd = some w ∧ t.host = rest ∧ t.hostLog = s.hostLog ∧ ∀ v, t.port v = s.port v) ∧
      (∀ rest, s.host = .withdraw :: rest →
        t.cmd = none ∧ t.host = rest ∧ t.hostLog = s.hostLog ∧ ∀ v, t.port v = s.port v) ∧
      (∀ v src rest, s.host = .attach v src :: rest →
        t.port v = ⟨src, []⟩ ∧ t.port v.other = s.port v.other ∧ t.cmd = s.cmd ∧ t.host = rest ∧ t.hostLog = s.hostLog) ∧
      (∀ v rest, s.host = .waitIdle v :: rest →
        ((s.engine v).busy = true → t.host = s.host) ∧ ((s.engine v).busy = false → t.host = rest) ∧
        t.cmd = s.cmd ∧ t.hostLog = s.hostLog ∧ ∀ u, t.port u = s.port u)

/-! ## Reset -/

/-- R43, R220: what the spec gives of the state after reset, in both instances. -/
def Obligations.ResetStateIsIdle : Prop :=
  ∀ v : Variant, (State.reset.engine v).SEQ = ⟨Phase.idle.code, 0#7⟩ ∧ (State.reset.engine v).CAUSE = 0#2 ∧
    (State.reset.engine v).ERRKIND = 0#8 ∧ (State.reset.engine v).status = 0x00#8

/-- R220, R221: the hardware reset abandons whatever runs, in both instances: IDLE, no error, no digest. That the sources
and the host are left as they are is the model's reading (log entry 4). -/
def Obligations.HardwareResetAbandonsEverything : Prop :=
  ∀ (s : State) (rest : List HostAct), commandTaken s = none → nextAgent s = .host → s.host = .reset :: rest →
    ∃ t, step s = .next t ∧ t.host = rest ∧ t.cmd = s.cmd ∧ (∀ v, t.port v = s.port v) ∧
      ∀ v, (t.engine v).SEQ = ⟨Phase.idle.code, 0#7⟩ ∧ (t.engine v).CAUSE = 0#2 ∧ (t.engine v).ERRKIND = 0#8 ∧
        (t.engine v).status = 0x00#8 ∧
        ∀ i, i < v.DB → hostRead t v (BitVec.ofNat 8 (0x40 + i)) = .refused .digestNotReady

/-! ## A step of the machine -/

/-- R80, R170: when no command is taken and an instance moves, the step is the instruction its SEQ decodes to, performed in
that instance with its place in the schedule used up; when its SEQ holds a phase code 12 to 15, the step is a fault (R87 b,
log entry 13). Who moves is the model's own data (log entry 6). -/
def Obligations.StepRunsTheDecodedInstruction : Prop :=
  ∀ (s : State) (v : Variant), commandTaken s = none → nextAgent s = .engine v →
    (∀ i : Instr, decodeSeq ((s.engine v).SEQ.PHASE ++ (s.engine v).SEQ.T) = .ok i → i.wf = true →
      step s = exec i { s with schedule := s.schedule.tail, cur := v }) ∧
    (12 ≤ (s.engine v).SEQ.PHASE.toNat → step s = .fault .unreachablePhase)

/-- R82: a defined command word offered to an instance that holds is taken by the very next step, and the port is then
free. That it goes before every other move is the model's reading (log entry 7). -/
def Obligations.StepTakesAnOfferedCommand : Prop :=
  ∀ (s : State) (v : Variant), (s.engine v).holds = true →
    (s.cmd = some (cmdWord 1#3 v) → step s = exec (.start v) (s.setCmd none) ∧
      ∀ t, step s = .next t → t.cmd = none) ∧
    (s.cmd = some (cmdWord 2#3 v) → step s = exec (.clear v) (s.setCmd none) ∧
      ∀ t, step s = .next t → t.cmd = none)

/-- R82, R87 a: a word that is undefined, or addressed to a busy instance, is not taken: the step of an instance is what it
would be with nothing offered, and the word stays on the port. -/
def Obligations.WordNotTakenHasNoEffect : Prop :=
  ∀ (s : State) (w : BitVec 8) (u : Variant), s.cmd = some w →
    ((∃ er, decodeCmd w = .error er) ∨
      ∃ i v, decodeCmd w = .ok i ∧ commandTarget i = some v ∧ (s.engine v).holds = false) →
    nextAgent s = .engine u →
    (∀ t, step (s.setCmd none) = .next t → step s = .next (t.setCmd (some w))) ∧
    (∀ f, step (s.setCmd none) = .fault f → step s = .fault f)

/-- R171: every way a step changes the phase of an instance is a row of the transition table, or a START or CLEAR taken
(from a hold phase), or the hardware reset. -/
def Obligations.PhaseChangesFollowTheTransitionTable : Prop :=
  ∀ (s t : State) (v : Variant) (p : Phase), step s = .next t → (s.engine v).inPhase p = true →
    t.engine v = s.engine v ∨
    (commandTaken s = some (.start v) ∧ p ∈ [Phase.idle, .done, .error] ∧ (t.engine v).inPhase .clrbuf = true) ∨
    (commandTaken s = some (.clear v) ∧ p ∈ [Phase.idle, .done, .error] ∧ (t.engine v).inPhase .idle = true) ∨
    (s.host.head? = some .reset ∧ (t.engine v).inPhase .idle = true) ∨
    ∃ q, (p, q) ∈ transitions ∧ (t.engine v).inPhase q = true

/-- R21, R25 to R28, R31 to R37, R39: when an instance moves, an element changes only if the micro-operation of its phase is
one of the element's writers. -/
def Obligations.ElementsChangeOnlyByTheirWriters : Prop :=
  ∀ (s t : State) (v : Variant) (p : Phase) (f : Field), commandTaken s = none → nextAgent s = .engine v →
    (s.engine v).inPhase p = true → step s = .next t → p ∉ writers f → (s.engine v).SameField (t.engine v) f

/-- R33, R32: while an instance runs, its Byte Counter never falls, and neither flag is ever cleared. -/
def Obligations.CounterAndFlagsNeverGoBack : Prop :=
  ∀ (s t : State) (v u : Variant), commandTaken s = none → nextAgent s = .engine v → step s = .next t →
    (s.engine u).BC.toNat ≤ (t.engine u).BC.toNat ∧
    ((s.engine u).PADDED = true → (t.engine u).PADDED = true) ∧
    ((s.engine u).TERMINAL = true → (t.engine u).TERMINAL = true)

/-- R56, R58, R53: only an instance in READ asks its source, and it asks for `B - CNT` bytes, which is at least 1 and at most
B. The lower bound rests on the invariant of the machine. -/
def Obligations.OnlyReadAsksTheSource : Prop :=
  ∀ (s t : State) (v : Variant), (s.engine v).Inv → commandTaken s = none → nextAgent s = .engine v → step s = .next t →
    t.port v = s.port v ∨
    ((s.engine v).inPhase .read = true ∧
      (t.port v).requests = (s.port v).requests ++ [v.B - (s.engine v).CNT.val] ∧
      1 ≤ v.B - (s.engine v).CNT.val ∧ v.B - (s.engine v).CNT.val ≤ v.B)

/-! ## The two instances -/

/-- R63, R207, R198: a step of one instance changes nothing of the other, nor of its port, nor of the host's. -/
def Obligations.InstancesDoNotInterfere : Prop :=
  ∀ (s t : State) (v u : Variant), commandTaken s = none → nextAgent s = .engine v → step s = .next t → u ≠ v →
    t.engine u = s.engine u ∧ t.port u = s.port u ∧ t.cmd = s.cmd ∧ t.host = s.host ∧ t.hostLog = s.hostLog

/-- R63: the steps of the two instances may interleave in any way: two moves of E256 and E512 in one order and in the other
give the same instances and ports. -/
def Obligations.InterleavingDoesNotMatter : Prop :=
  ∀ (s t : State) (rest : List Agent), s.cmd = none →
    Host.Core.run Sys2Proof.core 2
      ({ s with schedule := .engine .e256 :: .engine .e512 :: rest } : Sys2Proof.Machine.State) = .next t →
    ∃ t', Host.Core.run Sys2Proof.core 2
        ({ s with schedule := .engine .e512 :: .engine .e256 :: rest } : Sys2Proof.Machine.State) = .next t' ∧
      (∀ v, t'.engine v = t.engine v) ∧ ∀ v, t'.port v = t.port v

/-! ## The invariant -/

/-- The invariant of the machine holds right after reset, with the reset values of log entry 1. -/
def Obligations.InvariantHoldsAtReset : Prop := State.reset.Inv

/-- R25, R33, R36, R37, R60, R136, R137, R139, R140, R162, R171: every step that answers a next state keeps the invariant of
the machine, from every state that meets it. -/
def Obligations.EveryStepKeepsTheInvariant : Prop :=
  ∀ s t : State, s.Inv → step s = .next t → t.Inv

/-- R87 b, R87 c, R170, R227: from a state that meets the invariant, a step never stops: neither an unreachable phase code
nor an index beyond the schedule is met. A READ whose source is silent counts as a step that waits (log entry 10); R170 and
R227 call such an instance one that cannot step until the source answers. -/
def Obligations.InvariantStatesNeverStop : Prop :=
  ∀ s : State, s.Inv → ∃ t, step s = .next t

/-! ## Sources -/

/-- R57: a source that holds a stream and gives at least a byte to each request meets the contract: what it has returned is a
prefix of the stream, no answer is longer than asked, an empty answer means everything has been returned, and
end-of-stream is sticky. The sources as plain data are the model's (log entry 11). -/
def Obligations.StreamSourceMeetsTheContract : Prop :=
  ∀ (str : List Byte) (src : Source) (reqs : List Nat) (n : Nat), src.HoldsStream str →
    (∀ r ∈ reqs, 1 ≤ r) → 1 ≤ n →
    ((src.answers reqs).flatMap SrcAnswer.bytes <+: str) ∧
    ∀ a, src.answers (reqs ++ [n]) = src.answers reqs ++ [a] →
      a.bytes.length ≤ n ∧
      (a = .data [] → (src.answers reqs).flatMap SrcAnswer.bytes = str) ∧
      (.data [] ∈ src.answers reqs → a.bytes = [])

/-! ## What the engine computes -/

/-- R131, R139, R179: the padded message is a whole number of blocks, as many as the rule says; the stream comes first, then
the marker, then bytes `0x00` only, fewer than B of them, and the last `LB` bytes are the bit length. For a stream of `2^(BCW-3)` bytes or more, of which R179
does not speak, the length field is the model's (DESIGN CHOICE, log entry 27). -/
def Obligations.PaddedMessageIsWholeBlocks : Prop :=
  ∀ (v : Variant) (str : List Byte),
    (padMessage v str).length = v.B * blockCount v str.length ∧ padZeros v str.length < v.B ∧
    (padMessage v str).take str.length = str ∧ (padMessage v str)[str.length]? = some 0x80#8 ∧
    (∀ i, str.length < i → i < (padMessage v str).length - v.LB → (padMessage v str)[i]? = some 0x00#8) ∧
    (padMessage v str).length = str.length + 1 + padZeros v str.length + v.LB ∧
    (padMessage v str).drop ((padMessage v str).length - v.LB) = beBytes v.LB (str.length * 8) ∧
    (messageBlocks v str).length = blockCount v str.length ∧ (∀ b ∈ messageBlocks v str, b.toList.length = v.B) ∧
    (messageBlocks v str).flatMap Vector.toList = padMessage v str

/-- R180, R177, R181: a computation started with a source that holds a stream, gives its bytes in chunks of any sizes and
never errs, ends in DONE with `SHA2(P, s)` in DIGEST, after exactly the number of steps R177 gives. The schedule and the sources are the
model's data (log entries 6 and 11). -/
def Obligations.RunEndsInDoneWithSha2 : Prop :=
  ∀ (v : Variant) (s : State) (str : List Byte) (chunks : List Nat) (errs : List (Nat × BitVec 8)) (asked : Nat),
    (s.engine v).holds = true → (s.port v).source = .stream str chunks errs asked → (∀ c ∈ chunks, 1 ≤ c) →
    (∀ i, asked ≤ i → errs.lookup i = none) → str.length < 2 ^ (v.BCW - 3) →
    ∃ (n r : Nat) (t : State),
      Host.Core.run Sys2Proof.core (n + 1)
        ({ s with cmd := some (cmdWord 1#3 v), schedule := List.replicate n (.engine v) } : Sys2Proof.Machine.State) =
          .next t ∧
      (t.engine v).inPhase .done = true ∧ (t.engine v).DIGEST = sha2 v str ∧
      (t.port v).requests.length = (s.port v).requests.length + r ∧
      n = blockCount v str.length * (v.N + 6) + r + 1 ∧ ∀ u, u ≠ v → t.engine u = s.engine u

/-- R180, R191, R195: whatever requests the source of a stream errs at, the computation ends in DONE with the right digest,
or in ERROR with CAUSE 1 and a kind the source was set to give at one of the requests to come; never in DONE with another
digest. The schedule and the sources are the model's data (log entries 6 and 11). -/
def Obligations.RunEndsRightOrInError : Prop :=
  ∀ (v : Variant) (s : State) (str : List Byte) (chunks : List Nat) (errs : List (Nat × BitVec 8)) (asked : Nat),
    (s.engine v).holds = true → (s.port v).source = .stream str chunks errs asked → (∀ c ∈ chunks, 1 ≤ c) →
    str.length < 2 ^ (v.BCW - 3) →
    ∃ (n : Nat) (t : State),
      Host.Core.run Sys2Proof.core (n + 1)
        ({ s with cmd := some (cmdWord 1#3 v), schedule := List.replicate n (.engine v) } : Sys2Proof.Machine.State) =
          .next t ∧
      ((t.engine v).result = some (.digest (sha2 v str)) ∨
        ∃ i kind, asked ≤ i ∧ errs.lookup i = some kind ∧ (t.engine v).result = some (.failure 1#2 kind))

/-- R182: `Hex` gives two lower-case digits a byte, and `Unhex(Hex(d)) = d`. -/
def Obligations.HexRoundTrip : Prop :=
  ∀ d : List Byte, (hex d).length = 2 * d.length ∧ (∀ c ∈ hex d, c ∈ hexDigits.toList) ∧ unhex (hex d) = some d ∧
    ∀ i (h : i < d.length), (hex d)[2 * i]? = hexDigits.toList[(d[i]).toNat / 16]? ∧
      (hex d)[2 * i + 1]? = hexDigits.toList[(d[i]).toNat % 16]?
end

