-- ==== Sys2Proof/Laws/State.lean ====
section
/-! SUPPORT. One lemma per field per update of an engine and of the state, so that no later proof unfolds a record update.
Where a field is left out of an update's list, its new value is a free value. -/

namespace Sys2Proof

/-- Every instance is one of the two. -/
theorem Variant.eq_or_other (u v : Variant) : u = v ∨ u = v.other := by
  cases u <;> cases v <;> first | exact .inl rfl | exact .inr rfl

@[simp] theorem Variant.other_ne (v : Variant) : v.other ≠ v := by cases v <;> decide

/-! The relations of the parameters (R6). -/

theorem Variant.W_eq (v : Variant) : v.W = 8 * v.WB := by cases v <;> rfl
theorem Variant.B_eq (v : Variant) : v.B = 16 * v.WB := by cases v <;> rfl
theorem Variant.DB_eq (v : Variant) : v.DB = 8 * v.WB := by cases v <;> rfl
theorem Variant.BCW_eq (v : Variant) : v.BCW = 8 * v.LB := by cases v <;> rfl
theorem Variant.LB_eq (v : Variant) : v.LB = 2 * v.WB := by cases v <;> rfl
theorem Variant.LB_lt_B (v : Variant) : v.LB < v.B := by cases v <;> decide
theorem Variant.B_pos (v : Variant) : 0 < v.B := by cases v <;> decide
theorem Variant.N_le (v : Variant) : v.N ≤ 80 := by cases v <;> decide
theorem Variant.N_pos (v : Variant) : 0 < v.N := by cases v <;> decide
theorem Variant.B_dvd_counter (v : Variant) : v.B ∣ 2 ^ (v.BCW - 3) := by cases v <;> decide

/-! Phases and their codes (R84). -/

@[simp] theorem Phase.ofCode_code (p : Phase) : Phase.ofCode p.code = some p := by cases p <;> rfl

theorem Phase.code_inj {p q : Phase} : p.code = q.code ↔ p = q :=
  ⟨fun h => by simpa using congrArg Phase.ofCode h, fun h => h ▸ rfl⟩

theorem Phase.code_le (p : Phase) : p.code.toNat ≤ 11 := by cases p <;> decide

/-- A legal code is the code of a phase. -/
theorem Phase.exists_code {c : BitVec 4} (h : c.toNat ≤ 11) : ∃ p : Phase, c = p.code := by
  have key : ∀ c : BitVec 4, c.toNat ≤ 11 → ∃ p ∈ [Phase.idle, .clrbuf, .read, .pad, .parse, .expand, .load, .round, .fold,
      .emit, .done, .error], c = p.code := by decide
  obtain ⟨p, _, hp⟩ := key c h
  exact ⟨p, hp⟩

end Sys2Proof

namespace Sys2Proof.Machine

section Fields

variable {v : Variant} (e : Engine v)

@[simp] theorem Engine.setPhase_SEQ (p : Phase) : (e.setPhase p).SEQ = ⟨p.code, e.SEQ.T⟩ := rfl
@[simp] theorem Engine.setPhase_R (p : Phase) : (e.setPhase p).R = e.R := rfl
@[simp] theorem Engine.setPhase_H (p : Phase) : (e.setPhase p).H = e.H := rfl
@[simp] theorem Engine.setPhase_M (p : Phase) : (e.setPhase p).M = e.M := rfl
@[simp] theorem Engine.setPhase_WS (p : Phase) : (e.setPhase p).WS = e.WS := rfl
@[simp] theorem Engine.setPhase_DIGEST (p : Phase) : (e.setPhase p).DIGEST = e.DIGEST := rfl
@[simp] theorem Engine.setPhase_BUF (p : Phase) : (e.setPhase p).BUF = e.BUF := rfl
@[simp] theorem Engine.setPhase_CNT (p : Phase) : (e.setPhase p).CNT = e.CNT := rfl
@[simp] theorem Engine.setPhase_BC (p : Phase) : (e.setPhase p).BC = e.BC := rfl
@[simp] theorem Engine.setPhase_PADDED (p : Phase) : (e.setPhase p).PADDED = e.PADDED := rfl
@[simp] theorem Engine.setPhase_TERMINAL (p : Phase) : (e.setPhase p).TERMINAL = e.TERMINAL := rfl
@[simp] theorem Engine.setPhase_CAUSE (p : Phase) : (e.setPhase p).CAUSE = e.CAUSE := rfl
@[simp] theorem Engine.setPhase_ERRKIND (p : Phase) : (e.setPhase p).ERRKIND = e.ERRKIND := rfl

@[simp] theorem Engine.bufClear_SEQ : (e.bufClear).SEQ = e.SEQ := rfl
@[simp] theorem Engine.bufClear_R : (e.bufClear).R = e.R := rfl
@[simp] theorem Engine.bufClear_H : (e.bufClear).H = e.H := rfl
@[simp] theorem Engine.bufClear_M : (e.bufClear).M = e.M := rfl
@[simp] theorem Engine.bufClear_WS : (e.bufClear).WS = e.WS := rfl
@[simp] theorem Engine.bufClear_DIGEST : (e.bufClear).DIGEST = e.DIGEST := rfl
@[simp] theorem Engine.bufClear_BUF : (e.bufClear).BUF = [] := rfl
@[simp] theorem Engine.bufClear_CNT : (e.bufClear).CNT = e.CNT := rfl
@[simp] theorem Engine.bufClear_BC : (e.bufClear).BC = e.BC := rfl
@[simp] theorem Engine.bufClear_PADDED : (e.bufClear).PADDED = e.PADDED := rfl
@[simp] theorem Engine.bufClear_TERMINAL : (e.bufClear).TERMINAL = e.TERMINAL := rfl
@[simp] theorem Engine.bufClear_CAUSE : (e.bufClear).CAUSE = e.CAUSE := rfl
@[simp] theorem Engine.bufClear_ERRKIND : (e.bufClear).ERRKIND = e.ERRKIND := rfl

@[simp] theorem Engine.bufWrite_SEQ (a : Fin v.B) (b : Byte) : (e.bufWrite a b).SEQ = e.SEQ := rfl
@[simp] theorem Engine.bufWrite_R (a : Fin v.B) (b : Byte) : (e.bufWrite a b).R = e.R := rfl
@[simp] theorem Engine.bufWrite_H (a : Fin v.B) (b : Byte) : (e.bufWrite a b).H = e.H := rfl
@[simp] theorem Engine.bufWrite_M (a : Fin v.B) (b : Byte) : (e.bufWrite a b).M = e.M := rfl
@[simp] theorem Engine.bufWrite_WS (a : Fin v.B) (b : Byte) : (e.bufWrite a b).WS = e.WS := rfl
@[simp] theorem Engine.bufWrite_DIGEST (a : Fin v.B) (b : Byte) : (e.bufWrite a b).DIGEST = e.DIGEST := rfl
@[simp] theorem Engine.bufWrite_BUF (a : Fin v.B) (b : Byte) : (e.bufWrite a b).BUF = Memory.write e.BUF a.val b := rfl
@[simp] theorem Engine.bufWrite_CNT (a : Fin v.B) (b : Byte) : (e.bufWrite a b).CNT = e.CNT := rfl
@[simp] theorem Engine.bufWrite_BC (a : Fin v.B) (b : Byte) : (e.bufWrite a b).BC = e.BC := rfl
@[simp] theorem Engine.bufWrite_PADDED (a : Fin v.B) (b : Byte) : (e.bufWrite a b).PADDED = e.PADDED := rfl
@[simp] theorem Engine.bufWrite_TERMINAL (a : Fin v.B) (b : Byte) : (e.bufWrite a b).TERMINAL = e.TERMINAL := rfl
@[simp] theorem Engine.bufWrite_CAUSE (a : Fin v.B) (b : Byte) : (e.bufWrite a b).CAUSE = e.CAUSE := rfl
@[simp] theorem Engine.bufWrite_ERRKIND (a : Fin v.B) (b : Byte) : (e.bufWrite a b).ERRKIND = e.ERRKIND := rfl

@[simp] theorem Engine.bufWriteBytes_SEQ (a : Nat) (d : List Byte) (h : a + d.length ≤ v.B) : (e.bufWriteBytes a d h).SEQ = e.SEQ := rfl
@[simp] theorem Engine.bufWriteBytes_R (a : Nat) (d : List Byte) (h : a + d.length ≤ v.B) : (e.bufWriteBytes a d h).R = e.R := rfl
@[simp] theorem Engine.bufWriteBytes_H (a : Nat) (d : List Byte) (h : a + d.length ≤ v.B) : (e.bufWriteBytes a d h).H = e.H := rfl
@[simp] theorem Engine.bufWriteBytes_M (a : Nat) (d : List Byte) (h : a + d.length ≤ v.B) : (e.bufWriteBytes a d h).M = e.M := rfl
@[simp] theorem Engine.bufWriteBytes_WS (a : Nat) (d : List Byte) (h : a + d.length ≤ v.B) : (e.bufWriteBytes a d h).WS = e.WS := rfl
@[simp] theorem Engine.bufWriteBytes_DIGEST (a : Nat) (d : List Byte) (h : a + d.length ≤ v.B) : (e.bufWriteBytes a d h).DIGEST = e.DIGEST := rfl
@[simp] theorem Engine.bufWriteBytes_BUF (a : Nat) (d : List Byte) (h : a + d.length ≤ v.B) : (e.bufWriteBytes a d h).BUF = Memory.writeBytes e.BUF a d := rfl
@[simp] theorem Engine.bufWriteBytes_CNT (a : Nat) (d : List Byte) (h : a + d.length ≤ v.B) : (e.bufWriteBytes a d h).CNT = e.CNT := rfl
@[simp] theorem Engine.bufWriteBytes_BC (a : Nat) (d : List Byte) (h : a + d.length ≤ v.B) : (e.bufWriteBytes a d h).BC = e.BC := rfl
@[simp] theorem Engine.bufWriteBytes_PADDED (a : Nat) (d : List Byte) (h : a + d.length ≤ v.B) : (e.bufWriteBytes a d h).PADDED = e.PADDED := rfl
@[simp] theorem Engine.bufWriteBytes_TERMINAL (a : Nat) (d : List Byte) (h : a + d.length ≤ v.B) : (e.bufWriteBytes a d h).TERMINAL = e.TERMINAL := rfl
@[simp] theorem Engine.bufWriteBytes_CAUSE (a : Nat) (d : List Byte) (h : a + d.length ≤ v.B) : (e.bufWriteBytes a d h).CAUSE = e.CAUSE := rfl
@[simp] theorem Engine.bufWriteBytes_ERRKIND (a : Nat) (d : List Byte) (h : a + d.length ≤ v.B) : (e.bufWriteBytes a d h).ERRKIND = e.ERRKIND := rfl

@[simp] theorem Engine.memWrite_SEQ (a n x : Nat) (h : a + n ≤ v.B) : (e.memWrite a n x h).SEQ = e.SEQ := rfl
@[simp] theorem Engine.memWrite_R (a n x : Nat) (h : a + n ≤ v.B) : (e.memWrite a n x h).R = e.R := rfl
@[simp] theorem Engine.memWrite_H (a n x : Nat) (h : a + n ≤ v.B) : (e.memWrite a n x h).H = e.H := rfl
@[simp] theorem Engine.memWrite_M (a n x : Nat) (h : a + n ≤ v.B) : (e.memWrite a n x h).M = e.M := rfl
@[simp] theorem Engine.memWrite_WS (a n x : Nat) (h : a + n ≤ v.B) : (e.memWrite a n x h).WS = e.WS := rfl
@[simp] theorem Engine.memWrite_DIGEST (a n x : Nat) (h : a + n ≤ v.B) : (e.memWrite a n x h).DIGEST = e.DIGEST := rfl
@[simp] theorem Engine.memWrite_BUF (a n x : Nat) (h : a + n ≤ v.B) : (e.memWrite a n x h).BUF = Memory.writeBytes e.BUF a (beBytes n x) := rfl
@[simp] theorem Engine.memWrite_CNT (a n x : Nat) (h : a + n ≤ v.B) : (e.memWrite a n x h).CNT = e.CNT := rfl
@[simp] theorem Engine.memWrite_BC (a n x : Nat) (h : a + n ≤ v.B) : (e.memWrite a n x h).BC = e.BC := rfl
@[simp] theorem Engine.memWrite_PADDED (a n x : Nat) (h : a + n ≤ v.B) : (e.memWrite a n x h).PADDED = e.PADDED := rfl
@[simp] theorem Engine.memWrite_TERMINAL (a n x : Nat) (h : a + n ≤ v.B) : (e.memWrite a n x h).TERMINAL = e.TERMINAL := rfl
@[simp] theorem Engine.memWrite_CAUSE (a n x : Nat) (h : a + n ≤ v.B) : (e.memWrite a n x h).CAUSE = e.CAUSE := rfl
@[simp] theorem Engine.memWrite_ERRKIND (a n x : Nat) (h : a + n ≤ v.B) : (e.memWrite a n x h).ERRKIND = e.ERRKIND := rfl

@[simp] theorem Engine.raise_SEQ (x : Cause) : (e.raise x).SEQ = ⟨Phase.error.code, e.SEQ.T⟩ := rfl
@[simp] theorem Engine.raise_R (x : Cause) : (e.raise x).R = e.R := rfl
@[simp] theorem Engine.raise_H (x : Cause) : (e.raise x).H = e.H := rfl
@[simp] theorem Engine.raise_M (x : Cause) : (e.raise x).M = e.M := rfl
@[simp] theorem Engine.raise_WS (x : Cause) : (e.raise x).WS = e.WS := rfl
@[simp] theorem Engine.raise_DIGEST (x : Cause) : (e.raise x).DIGEST = e.DIGEST := rfl
@[simp] theorem Engine.raise_BUF (x : Cause) : (e.raise x).BUF = e.BUF := rfl
@[simp] theorem Engine.raise_CNT (x : Cause) : (e.raise x).CNT = e.CNT := rfl
@[simp] theorem Engine.raise_BC (x : Cause) : (e.raise x).BC = e.BC := rfl
@[simp] theorem Engine.raise_PADDED (x : Cause) : (e.raise x).PADDED = e.PADDED := rfl
@[simp] theorem Engine.raise_TERMINAL (x : Cause) : (e.raise x).TERMINAL = e.TERMINAL := rfl
@[simp] theorem Engine.raise_CAUSE (x : Cause) : (e.raise x).CAUSE = x.code := rfl
@[simp] theorem Engine.raise_ERRKIND (x : Cause) : (e.raise x).ERRKIND = x.kind := rfl

@[simp] theorem Engine.leaveError_SEQ (p : Phase) : (e.leaveError p).SEQ = ⟨p.code, 0#7⟩ := rfl
@[simp] theorem Engine.leaveError_R (p : Phase) : (e.leaveError p).R = e.R := rfl
@[simp] theorem Engine.leaveError_H (p : Phase) : (e.leaveError p).H = e.H := rfl
@[simp] theorem Engine.leaveError_M (p : Phase) : (e.leaveError p).M = e.M := rfl
@[simp] theorem Engine.leaveError_WS (p : Phase) : (e.leaveError p).WS = e.WS := rfl
@[simp] theorem Engine.leaveError_DIGEST (p : Phase) : (e.leaveError p).DIGEST = e.DIGEST := rfl
@[simp] theorem Engine.leaveError_BUF (p : Phase) : (e.leaveError p).BUF = e.BUF := rfl
@[simp] theorem Engine.leaveError_CNT (p : Phase) : (e.leaveError p).CNT = e.CNT := rfl
@[simp] theorem Engine.leaveError_BC (p : Phase) : (e.leaveError p).BC = e.BC := rfl
@[simp] theorem Engine.leaveError_PADDED (p : Phase) : (e.leaveError p).PADDED = e.PADDED := rfl
@[simp] theorem Engine.leaveError_TERMINAL (p : Phase) : (e.leaveError p).TERMINAL = e.TERMINAL := rfl
@[simp] theorem Engine.leaveError_CAUSE (p : Phase) : (e.leaveError p).CAUSE = 0#2 := rfl
@[simp] theorem Engine.leaveError_ERRKIND (p : Phase) : (e.leaveError p).ERRKIND = 0#8 := rfl

@[simp] theorem Engine.setPadded_SEQ : (e.setPadded).SEQ = e.SEQ := rfl
@[simp] theorem Engine.setPadded_R : (e.setPadded).R = e.R := rfl
@[simp] theorem Engine.setPadded_H : (e.setPadded).H = e.H := rfl
@[simp] theorem Engine.setPadded_M : (e.setPadded).M = e.M := rfl
@[simp] theorem Engine.setPadded_WS : (e.setPadded).WS = e.WS := rfl
@[simp] theorem Engine.setPadded_DIGEST : (e.setPadded).DIGEST = e.DIGEST := rfl
@[simp] theorem Engine.setPadded_BUF : (e.setPadded).BUF = e.BUF := rfl
@[simp] theorem Engine.setPadded_CNT : (e.setPadded).CNT = e.CNT := rfl
@[simp] theorem Engine.setPadded_BC : (e.setPadded).BC = e.BC := rfl
@[simp] theorem Engine.setPadded_PADDED : (e.setPadded).PADDED = true := rfl
@[simp] theorem Engine.setPadded_TERMINAL : (e.setPadded).TERMINAL = e.TERMINAL := rfl
@[simp] theorem Engine.setPadded_CAUSE : (e.setPadded).CAUSE = e.CAUSE := rfl
@[simp] theorem Engine.setPadded_ERRKIND : (e.setPadded).ERRKIND = e.ERRKIND := rfl

@[simp] theorem Engine.setTerminal_SEQ : (e.setTerminal).SEQ = e.SEQ := rfl
@[simp] theorem Engine.setTerminal_R : (e.setTerminal).R = e.R := rfl
@[simp] theorem Engine.setTerminal_H : (e.setTerminal).H = e.H := rfl
@[simp] theorem Engine.setTerminal_M : (e.setTerminal).M = e.M := rfl
@[simp] theorem Engine.setTerminal_WS : (e.setTerminal).WS = e.WS := rfl
@[simp] theorem Engine.setTerminal_DIGEST : (e.setTerminal).DIGEST = e.DIGEST := rfl
@[simp] theorem Engine.setTerminal_BUF : (e.setTerminal).BUF = e.BUF := rfl
@[simp] theorem Engine.setTerminal_CNT : (e.setTerminal).CNT = e.CNT := rfl
@[simp] theorem Engine.setTerminal_BC : (e.setTerminal).BC = e.BC := rfl
@[simp] theorem Engine.setTerminal_PADDED : (e.setTerminal).PADDED = e.PADDED := rfl
@[simp] theorem Engine.setTerminal_TERMINAL : (e.setTerminal).TERMINAL = true := rfl
@[simp] theorem Engine.setTerminal_CAUSE : (e.setTerminal).CAUSE = e.CAUSE := rfl
@[simp] theorem Engine.setTerminal_ERRKIND : (e.setTerminal).ERRKIND = e.ERRKIND := rfl

@[simp] theorem Engine.clearFlags_SEQ : (e.clearFlags).SEQ = e.SEQ := rfl
@[simp] theorem Engine.clearFlags_R : (e.clearFlags).R = e.R := rfl
@[simp] theorem Engine.clearFlags_H : (e.clearFlags).H = e.H := rfl
@[simp] theorem Engine.clearFlags_M : (e.clearFlags).M = e.M := rfl
@[simp] theorem Engine.clearFlags_WS : (e.clearFlags).WS = e.WS := rfl
@[simp] theorem Engine.clearFlags_DIGEST : (e.clearFlags).DIGEST = e.DIGEST := rfl
@[simp] theorem Engine.clearFlags_BUF : (e.clearFlags).BUF = e.BUF := rfl
@[simp] theorem Engine.clearFlags_CNT : (e.clearFlags).CNT = e.CNT := rfl
@[simp] theorem Engine.clearFlags_BC : (e.clearFlags).BC = e.BC := rfl
@[simp] theorem Engine.clearFlags_PADDED : (e.clearFlags).PADDED = false := rfl
@[simp] theorem Engine.clearFlags_TERMINAL : (e.clearFlags).TERMINAL = false := rfl
@[simp] theorem Engine.clearFlags_CAUSE : (e.clearFlags).CAUSE = e.CAUSE := rfl
@[simp] theorem Engine.clearFlags_ERRKIND : (e.clearFlags).ERRKIND = e.ERRKIND := rfl

@[simp] theorem Engine.unspecifyScratch_SEQ (k : Nat) : (e.unspecifyScratch k).SEQ = e.SEQ := rfl
@[simp] theorem Engine.unspecifyScratch_H (k : Nat) : (e.unspecifyScratch k).H = e.H := rfl
@[simp] theorem Engine.unspecifyScratch_BUF (k : Nat) : (e.unspecifyScratch k).BUF = e.BUF := rfl
@[simp] theorem Engine.unspecifyScratch_CNT (k : Nat) : (e.unspecifyScratch k).CNT = e.CNT := rfl
@[simp] theorem Engine.unspecifyScratch_BC (k : Nat) : (e.unspecifyScratch k).BC = e.BC := rfl
@[simp] theorem Engine.unspecifyScratch_PADDED (k : Nat) : (e.unspecifyScratch k).PADDED = e.PADDED := rfl
@[simp] theorem Engine.unspecifyScratch_TERMINAL (k : Nat) : (e.unspecifyScratch k).TERMINAL = e.TERMINAL := rfl
@[simp] theorem Engine.unspecifyScratch_CAUSE (k : Nat) : (e.unspecifyScratch k).CAUSE = e.CAUSE := rfl
@[simp] theorem Engine.unspecifyScratch_ERRKIND (k : Nat) : (e.unspecifyScratch k).ERRKIND = e.ERRKIND := rfl

@[simp] theorem Engine.unspecifyAll_SEQ (k : Nat) : (e.unspecifyAll k).SEQ = e.SEQ := rfl
@[simp] theorem Engine.unspecifyAll_CAUSE (k : Nat) : (e.unspecifyAll k).CAUSE = e.CAUSE := rfl
@[simp] theorem Engine.unspecifyAll_ERRKIND (k : Nat) : (e.unspecifyAll k).ERRKIND = e.ERRKIND := rfl

@[simp] theorem Engine.clrbufStep_SEQ : (e.clrbufStep).SEQ = ⟨Phase.read.code, e.SEQ.T⟩ := rfl
@[simp] theorem Engine.clrbufStep_R : (e.clrbufStep).R = e.R := rfl
@[simp] theorem Engine.clrbufStep_H : (e.clrbufStep).H = e.H := rfl
@[simp] theorem Engine.clrbufStep_M : (e.clrbufStep).M = e.M := rfl
@[simp] theorem Engine.clrbufStep_WS : (e.clrbufStep).WS = e.WS := rfl
@[simp] theorem Engine.clrbufStep_DIGEST : (e.clrbufStep).DIGEST = e.DIGEST := rfl
@[simp] theorem Engine.clrbufStep_BUF : (e.clrbufStep).BUF = [] := rfl
@[simp] theorem Engine.clrbufStep_CNT : (e.clrbufStep).CNT = 0 := rfl
@[simp] theorem Engine.clrbufStep_BC : (e.clrbufStep).BC = e.BC := rfl
@[simp] theorem Engine.clrbufStep_PADDED : (e.clrbufStep).PADDED = e.PADDED := rfl
@[simp] theorem Engine.clrbufStep_TERMINAL : (e.clrbufStep).TERMINAL = e.TERMINAL := rfl
@[simp] theorem Engine.clrbufStep_CAUSE : (e.clrbufStep).CAUSE = e.CAUSE := rfl
@[simp] theorem Engine.clrbufStep_ERRKIND : (e.clrbufStep).ERRKIND = e.ERRKIND := rfl

@[simp] theorem Engine.takeBytes_SEQ (d : List Byte) (h : e.CNT.val + d.length ≤ v.B) : (e.takeBytes d h).SEQ = ⟨(if e.CNT.val + d.length = v.B then Phase.pad else Phase.read).code, e.SEQ.T⟩ := rfl
@[simp] theorem Engine.takeBytes_R (d : List Byte) (h : e.CNT.val + d.length ≤ v.B) : (e.takeBytes d h).R = e.R := rfl
@[simp] theorem Engine.takeBytes_H (d : List Byte) (h : e.CNT.val + d.length ≤ v.B) : (e.takeBytes d h).H = e.H := rfl
@[simp] theorem Engine.takeBytes_M (d : List Byte) (h : e.CNT.val + d.length ≤ v.B) : (e.takeBytes d h).M = e.M := rfl
@[simp] theorem Engine.takeBytes_WS (d : List Byte) (h : e.CNT.val + d.length ≤ v.B) : (e.takeBytes d h).WS = e.WS := rfl
@[simp] theorem Engine.takeBytes_DIGEST (d : List Byte) (h : e.CNT.val + d.length ≤ v.B) : (e.takeBytes d h).DIGEST = e.DIGEST := rfl
@[simp] theorem Engine.takeBytes_BUF (d : List Byte) (h : e.CNT.val + d.length ≤ v.B) : (e.takeBytes d h).BUF = Memory.writeBytes e.BUF e.CNT.val d := rfl
@[simp] theorem Engine.takeBytes_CNT (d : List Byte) (h : e.CNT.val + d.length ≤ v.B) : (e.takeBytes d h).CNT = ⟨e.CNT.val + d.length, Nat.lt_succ_of_le h⟩ := rfl
@[simp] theorem Engine.takeBytes_BC (d : List Byte) (h : e.CNT.val + d.length ≤ v.B) : (e.takeBytes d h).BC = e.BC + BitVec.ofNat v.BCW d.length := rfl
@[simp] theorem Engine.takeBytes_PADDED (d : List Byte) (h : e.CNT.val + d.length ≤ v.B) : (e.takeBytes d h).PADDED = e.PADDED := rfl
@[simp] theorem Engine.takeBytes_TERMINAL (d : List Byte) (h : e.CNT.val + d.length ≤ v.B) : (e.takeBytes d h).TERMINAL = e.TERMINAL := rfl
@[simp] theorem Engine.takeBytes_CAUSE (d : List Byte) (h : e.CNT.val + d.length ≤ v.B) : (e.takeBytes d h).CAUSE = e.CAUSE := rfl
@[simp] theorem Engine.takeBytes_ERRKIND (d : List Byte) (h : e.CNT.val + d.length ≤ v.B) : (e.takeBytes d h).ERRKIND = e.ERRKIND := rfl

@[simp] theorem Engine.parseStep_SEQ : (e.parseStep).SEQ = ⟨Phase.expand.code, e.SEQ.T⟩ := rfl
@[simp] theorem Engine.parseStep_R : (e.parseStep).R = e.R := rfl
@[simp] theorem Engine.parseStep_H : (e.parseStep).H = e.H := rfl
@[simp] theorem Engine.parseStep_M : (e.parseStep).M = e.parsed := rfl
@[simp] theorem Engine.parseStep_WS : (e.parseStep).WS = e.WS := rfl
@[simp] theorem Engine.parseStep_DIGEST : (e.parseStep).DIGEST = e.DIGEST := rfl
@[simp] theorem Engine.parseStep_BUF : (e.parseStep).BUF = e.BUF := rfl
@[simp] theorem Engine.parseStep_CNT : (e.parseStep).CNT = e.CNT := rfl
@[simp] theorem Engine.parseStep_BC : (e.parseStep).BC = e.BC := rfl
@[simp] theorem Engine.parseStep_PADDED : (e.parseStep).PADDED = e.PADDED := rfl
@[simp] theorem Engine.parseStep_TERMINAL : (e.parseStep).TERMINAL = e.TERMINAL := rfl
@[simp] theorem Engine.parseStep_CAUSE : (e.parseStep).CAUSE = e.CAUSE := rfl
@[simp] theorem Engine.parseStep_ERRKIND : (e.parseStep).ERRKIND = e.ERRKIND := rfl

@[simp] theorem Engine.expandStep_SEQ : (e.expandStep).SEQ = ⟨Phase.load.code, e.SEQ.T⟩ := rfl
@[simp] theorem Engine.expandStep_R : (e.expandStep).R = e.R := rfl
@[simp] theorem Engine.expandStep_H : (e.expandStep).H = e.H := rfl
@[simp] theorem Engine.expandStep_M : (e.expandStep).M = e.M := rfl
@[simp] theorem Engine.expandStep_WS : (e.expandStep).WS = expand v e.M := rfl
@[simp] theorem Engine.expandStep_DIGEST : (e.expandStep).DIGEST = e.DIGEST := rfl
@[simp] theorem Engine.expandStep_BUF : (e.expandStep).BUF = e.BUF := rfl
@[simp] theorem Engine.expandStep_CNT : (e.expandStep).CNT = e.CNT := rfl
@[simp] theorem Engine.expandStep_BC : (e.expandStep).BC = e.BC := rfl
@[simp] theorem Engine.expandStep_PADDED : (e.expandStep).PADDED = e.PADDED := rfl
@[simp] theorem Engine.expandStep_TERMINAL : (e.expandStep).TERMINAL = e.TERMINAL := rfl
@[simp] theorem Engine.expandStep_CAUSE : (e.expandStep).CAUSE = e.CAUSE := rfl
@[simp] theorem Engine.expandStep_ERRKIND : (e.expandStep).ERRKIND = e.ERRKIND := rfl

@[simp] theorem Engine.loadStep_SEQ : (e.loadStep).SEQ = ⟨Phase.round.code, 0#7⟩ := rfl
@[simp] theorem Engine.loadStep_R : (e.loadStep).R = e.H := rfl
@[simp] theorem Engine.loadStep_H : (e.loadStep).H = e.H := rfl
@[simp] theorem Engine.loadStep_M : (e.loadStep).M = e.M := rfl
@[simp] theorem Engine.loadStep_WS : (e.loadStep).WS = e.WS := rfl
@[simp] theorem Engine.loadStep_DIGEST : (e.loadStep).DIGEST = e.DIGEST := rfl
@[simp] theorem Engine.loadStep_BUF : (e.loadStep).BUF = e.BUF := rfl
@[simp] theorem Engine.loadStep_CNT : (e.loadStep).CNT = e.CNT := rfl
@[simp] theorem Engine.loadStep_BC : (e.loadStep).BC = e.BC := rfl
@[simp] theorem Engine.loadStep_PADDED : (e.loadStep).PADDED = e.PADDED := rfl
@[simp] theorem Engine.loadStep_TERMINAL : (e.loadStep).TERMINAL = e.TERMINAL := rfl
@[simp] theorem Engine.loadStep_CAUSE : (e.loadStep).CAUSE = e.CAUSE := rfl
@[simp] theorem Engine.loadStep_ERRKIND : (e.loadStep).ERRKIND = e.ERRKIND := rfl

@[simp] theorem Engine.roundStep_SEQ (t : BitVec 7) (h : t.toNat < v.N) : (e.roundStep t h).SEQ = ⟨(if t.toNat + 1 = v.N then Phase.fold else Phase.round).code, t + 1#7⟩ := rfl
@[simp] theorem Engine.roundStep_R (t : BitVec 7) (h : t.toNat < v.N) : (e.roundStep t h).R = roundFn v e.R (roundConstant v t h) (e.scheduleWord t h) := rfl
@[simp] theorem Engine.roundStep_H (t : BitVec 7) (h : t.toNat < v.N) : (e.roundStep t h).H = e.H := rfl
@[simp] theorem Engine.roundStep_M (t : BitVec 7) (h : t.toNat < v.N) : (e.roundStep t h).M = e.M := rfl
@[simp] theorem Engine.roundStep_WS (t : BitVec 7) (h : t.toNat < v.N) : (e.roundStep t h).WS = e.WS := rfl
@[simp] theorem Engine.roundStep_DIGEST (t : BitVec 7) (h : t.toNat < v.N) : (e.roundStep t h).DIGEST = e.DIGEST := rfl
@[simp] theorem Engine.roundStep_BUF (t : BitVec 7) (h : t.toNat < v.N) : (e.roundStep t h).BUF = e.BUF := rfl
@[simp] theorem Engine.roundStep_CNT (t : BitVec 7) (h : t.toNat < v.N) : (e.roundStep t h).CNT = e.CNT := rfl
@[simp] theorem Engine.roundStep_BC (t : BitVec 7) (h : t.toNat < v.N) : (e.roundStep t h).BC = e.BC := rfl
@[simp] theorem Engine.roundStep_PADDED (t : BitVec 7) (h : t.toNat < v.N) : (e.roundStep t h).PADDED = e.PADDED := rfl
@[simp] theorem Engine.roundStep_TERMINAL (t : BitVec 7) (h : t.toNat < v.N) : (e.roundStep t h).TERMINAL = e.TERMINAL := rfl
@[simp] theorem Engine.roundStep_CAUSE (t : BitVec 7) (h : t.toNat < v.N) : (e.roundStep t h).CAUSE = e.CAUSE := rfl
@[simp] theorem Engine.roundStep_ERRKIND (t : BitVec 7) (h : t.toNat < v.N) : (e.roundStep t h).ERRKIND = e.ERRKIND := rfl

@[simp] theorem Engine.foldStep_SEQ : (e.foldStep).SEQ = ⟨(if e.TERMINAL = true then Phase.emit else Phase.clrbuf).code, e.SEQ.T⟩ := rfl
@[simp] theorem Engine.foldStep_R : (e.foldStep).R = e.R := rfl
@[simp] theorem Engine.foldStep_H : (e.foldStep).H = addWords e.H e.R := rfl
@[simp] theorem Engine.foldStep_M : (e.foldStep).M = e.M := rfl
@[simp] theorem Engine.foldStep_WS : (e.foldStep).WS = e.WS := rfl
@[simp] theorem Engine.foldStep_DIGEST : (e.foldStep).DIGEST = e.DIGEST := rfl
@[simp] theorem Engine.foldStep_BUF : (e.foldStep).BUF = e.BUF := rfl
@[simp] theorem Engine.foldStep_CNT : (e.foldStep).CNT = e.CNT := rfl
@[simp] theorem Engine.foldStep_BC : (e.foldStep).BC = e.BC := rfl
@[simp] theorem Engine.foldStep_PADDED : (e.foldStep).PADDED = e.PADDED := rfl
@[simp] theorem Engine.foldStep_TERMINAL : (e.foldStep).TERMINAL = e.TERMINAL := rfl
@[simp] theorem Engine.foldStep_CAUSE : (e.foldStep).CAUSE = e.CAUSE := rfl
@[simp] theorem Engine.foldStep_ERRKIND : (e.foldStep).ERRKIND = e.ERRKIND := rfl

@[simp] theorem Engine.emitStep_SEQ : (e.emitStep).SEQ = ⟨Phase.done.code, e.SEQ.T⟩ := rfl
@[simp] theorem Engine.emitStep_R : (e.emitStep).R = e.R := rfl
@[simp] theorem Engine.emitStep_H : (e.emitStep).H = e.H := rfl
@[simp] theorem Engine.emitStep_M : (e.emitStep).M = e.M := rfl
@[simp] theorem Engine.emitStep_WS : (e.emitStep).WS = e.WS := rfl
@[simp] theorem Engine.emitStep_DIGEST : (e.emitStep).DIGEST = serialize v e.H := rfl
@[simp] theorem Engine.emitStep_BUF : (e.emitStep).BUF = e.BUF := rfl
@[simp] theorem Engine.emitStep_CNT : (e.emitStep).CNT = e.CNT := rfl
@[simp] theorem Engine.emitStep_BC : (e.emitStep).BC = e.BC := rfl
@[simp] theorem Engine.emitStep_PADDED : (e.emitStep).PADDED = e.PADDED := rfl
@[simp] theorem Engine.emitStep_TERMINAL : (e.emitStep).TERMINAL = e.TERMINAL := rfl
@[simp] theorem Engine.emitStep_CAUSE : (e.emitStep).CAUSE = e.CAUSE := rfl
@[simp] theorem Engine.emitStep_ERRKIND : (e.emitStep).ERRKIND = e.ERRKIND := rfl

@[simp] theorem Engine.startStep_SEQ (k : Nat) : (e.startStep k).SEQ = ⟨Phase.clrbuf.code, 0#7⟩ := rfl
@[simp] theorem Engine.startStep_H (k : Nat) : (e.startStep k).H = H0 v := rfl
@[simp] theorem Engine.startStep_BUF (k : Nat) : (e.startStep k).BUF = e.BUF := rfl
@[simp] theorem Engine.startStep_CNT (k : Nat) : (e.startStep k).CNT = e.CNT := rfl
@[simp] theorem Engine.startStep_BC (k : Nat) : (e.startStep k).BC = 0 := rfl
@[simp] theorem Engine.startStep_PADDED (k : Nat) : (e.startStep k).PADDED = false := rfl
@[simp] theorem Engine.startStep_TERMINAL (k : Nat) : (e.startStep k).TERMINAL = false := rfl
@[simp] theorem Engine.startStep_CAUSE (k : Nat) : (e.startStep k).CAUSE = 0#2 := rfl
@[simp] theorem Engine.startStep_ERRKIND (k : Nat) : (e.startStep k).ERRKIND = 0#8 := rfl

@[simp] theorem Engine.toIdle_SEQ (k : Nat) : (e.toIdle k).SEQ = ⟨Phase.idle.code, 0#7⟩ := rfl
@[simp] theorem Engine.toIdle_CAUSE (k : Nat) : (e.toIdle k).CAUSE = 0#2 := rfl
@[simp] theorem Engine.toIdle_ERRKIND (k : Nat) : (e.toIdle k).ERRKIND = 0#8 := rfl

end Fields

section States

variable (s : State) (v : Variant)

@[simp] theorem State.engine_setEngine_self (e : Engine v) : (s.setEngine v e).engine v = e := by cases v <;> rfl

theorem State.engine_setEngine_ne {u : Variant} (e : Engine v) (h : u ≠ v) : (s.setEngine v e).engine u = s.engine u := by
  cases u <;> cases v <;> first | rfl | exact absurd rfl h

@[simp] theorem State.engine_setEngine_other (e : Engine v) : (s.setEngine v e).engine v.other = s.engine v.other := by
  cases v <;> rfl

@[simp] theorem State.port_setEngine (u : Variant) (e : Engine v) : (s.setEngine v e).port u = s.port u := by
  cases u <;> cases v <;> rfl

@[simp] theorem State.port_setPort_self (p : SrcPort) : (s.setPort v p).port v = p := by cases v <;> rfl

theorem State.port_setPort_ne {u : Variant} (p : SrcPort) (h : u ≠ v) : (s.setPort v p).port u = s.port u := by
  cases u <;> cases v <;> first | rfl | exact absurd rfl h

@[simp] theorem State.port_setPort_other (p : SrcPort) : (s.setPort v p).port v.other = s.port v.other := by
  cases v <;> rfl

@[simp] theorem State.engine_setPort (u : Variant) (p : SrcPort) : (s.setPort v p).engine u = s.engine u := by
  cases u <;> cases v <;> rfl

@[simp] theorem State.setEngine_cmd (e : Engine v) : (s.setEngine v e).cmd = s.cmd := by cases v <;> rfl
@[simp] theorem State.setPort_cmd (p : SrcPort) : (s.setPort v p).cmd = s.cmd := by cases v <;> rfl
@[simp] theorem State.setEngine_host (e : Engine v) : (s.setEngine v e).host = s.host := by cases v <;> rfl
@[simp] theorem State.setPort_host (p : SrcPort) : (s.setPort v p).host = s.host := by cases v <;> rfl
@[simp] theorem State.setEngine_hostLog (e : Engine v) : (s.setEngine v e).hostLog = s.hostLog := by cases v <;> rfl
@[simp] theorem State.setPort_hostLog (p : SrcPort) : (s.setPort v p).hostLog = s.hostLog := by cases v <;> rfl
@[simp] theorem State.setEngine_schedule (e : Engine v) : (s.setEngine v e).schedule = s.schedule := by cases v <;> rfl
@[simp] theorem State.setPort_schedule (p : SrcPort) : (s.setPort v p).schedule = s.schedule := by cases v <;> rfl
@[simp] theorem State.setEngine_cur (e : Engine v) : (s.setEngine v e).cur = s.cur := by cases v <;> rfl
@[simp] theorem State.setPort_cur (p : SrcPort) : (s.setPort v p).cur = s.cur := by cases v <;> rfl
@[simp] theorem State.setEngine_freeCount (e : Engine v) : (s.setEngine v e).freeCount = s.freeCount := by cases v <;> rfl
@[simp] theorem State.setPort_freeCount (p : SrcPort) : (s.setPort v p).freeCount = s.freeCount := by cases v <;> rfl

@[simp] theorem State.engine_setCmd (c : Option (BitVec 8)) : (s.setCmd c).engine v = s.engine v := by cases v <;> rfl
@[simp] theorem State.port_setCmd (c : Option (BitVec 8)) : (s.setCmd c).port v = s.port v := by cases v <;> rfl
@[simp] theorem State.setCmd_cmd (c : Option (BitVec 8)) : (s.setCmd c).cmd = c := rfl
@[simp] theorem State.setCmd_host (c : Option (BitVec 8)) : (s.setCmd c).host = s.host := rfl
@[simp] theorem State.setCmd_hostLog (c : Option (BitVec 8)) : (s.setCmd c).hostLog = s.hostLog := rfl
@[simp] theorem State.setCmd_schedule (c : Option (BitVec 8)) : (s.setCmd c).schedule = s.schedule := rfl
@[simp] theorem State.setCmd_cur (c : Option (BitVec 8)) : (s.setCmd c).cur = s.cur := rfl
@[simp] theorem State.setCmd_freeCount (c : Option (BitVec 8)) : (s.setCmd c).freeCount = s.freeCount := rfl

@[simp] theorem State.engine_setHost (acts : List HostAct) : (s.setHost acts).engine v = s.engine v := by cases v <;> rfl
@[simp] theorem State.port_setHost (acts : List HostAct) : (s.setHost acts).port v = s.port v := by cases v <;> rfl
@[simp] theorem State.setHost_cmd (acts : List HostAct) : (s.setHost acts).cmd = s.cmd := rfl
@[simp] theorem State.setHost_host (acts : List HostAct) : (s.setHost acts).host = acts := rfl
@[simp] theorem State.setHost_hostLog (acts : List HostAct) : (s.setHost acts).hostLog = s.hostLog := rfl
@[simp] theorem State.setHost_schedule (acts : List HostAct) : (s.setHost acts).schedule = s.schedule := rfl
@[simp] theorem State.setHost_cur (acts : List HostAct) : (s.setHost acts).cur = s.cur := rfl
@[simp] theorem State.setHost_freeCount (acts : List HostAct) : (s.setHost acts).freeCount = s.freeCount := rfl

@[simp] theorem State.engine_logRead (r : HostRead) : (s.logRead r).engine v = s.engine v := by cases v <;> rfl
@[simp] theorem State.port_logRead (r : HostRead) : (s.logRead r).port v = s.port v := by cases v <;> rfl
@[simp] theorem State.logRead_cmd (r : HostRead) : (s.logRead r).cmd = s.cmd := rfl
@[simp] theorem State.logRead_host (r : HostRead) : (s.logRead r).host = s.host := rfl
@[simp] theorem State.logRead_hostLog (r : HostRead) : (s.logRead r).hostLog = s.hostLog ++ [r] := rfl
@[simp] theorem State.logRead_schedule (r : HostRead) : (s.logRead r).schedule = s.schedule := rfl
@[simp] theorem State.logRead_cur (r : HostRead) : (s.logRead r).cur = s.cur := rfl
@[simp] theorem State.logRead_freeCount (r : HostRead) : (s.logRead r).freeCount = s.freeCount := rfl

@[simp] theorem State.engine_drawFree : (s.drawFree).engine v = s.engine v := by cases v <;> rfl
@[simp] theorem State.port_drawFree : (s.drawFree).port v = s.port v := by cases v <;> rfl
@[simp] theorem State.drawFree_cmd : (s.drawFree).cmd = s.cmd := rfl
@[simp] theorem State.drawFree_host : (s.drawFree).host = s.host := rfl
@[simp] theorem State.drawFree_hostLog : (s.drawFree).hostLog = s.hostLog := rfl
@[simp] theorem State.drawFree_schedule : (s.drawFree).schedule = s.schedule := rfl
@[simp] theorem State.drawFree_cur : (s.drawFree).cur = s.cur := rfl
@[simp] theorem State.drawFree_freeCount : (s.drawFree).freeCount = s.freeCount + 1 := rfl


@[simp] theorem State.setEngine_engine : s.setEngine v (s.engine v) = s := by cases v <;> rfl

@[simp] theorem State.setEngine_setEngine (e e' : Engine v) : (s.setEngine v e).setEngine v e' = s.setEngine v e' := by
  cases v <;> rfl

@[simp] theorem State.setPort_port : s.setPort v (s.port v) = s := by cases v <;> rfl

/-- Two states are equal when their instances, ports and the rest are. -/
theorem State.ext_engines {s t : State} (he : ∀ v, s.engine v = t.engine v) (hp : ∀ v, s.port v = t.port v)
    (h1 : s.cmd = t.cmd) (h2 : s.host = t.host) (h3 : s.hostLog = t.hostLog) (h4 : s.schedule = t.schedule)
    (h5 : s.cur = t.cur) (h6 : s.freeCount = t.freeCount) : s = t := by
  have a := he .e256
  have b := he .e512
  have c := hp .e256
  have d := hp .e512
  cases s
  cases t
  simp only [State.engine, State.port] at *
  subst a b c d h1 h2 h3 h4 h5 h6
  rfl

@[simp] theorem advance_engine : (advance s).engine v = s.engine v := by cases v <;> rfl
@[simp] theorem advance_port : (advance s).port v = s.port v := by cases v <;> rfl
@[simp] theorem advance_cmd : (advance s).cmd = s.cmd := rfl
@[simp] theorem advance_host : (advance s).host = s.host := rfl
@[simp] theorem advance_hostLog : (advance s).hostLog = s.hostLog := rfl
@[simp] theorem advance_schedule : (advance s).schedule = s.schedule.tail := rfl
@[simp] theorem advance_cur : (advance s).cur = s.cur := rfl
@[simp] theorem advance_freeCount : (advance s).freeCount = s.freeCount := rfl

@[simp] theorem select_engine (u : Variant) : (select s u).engine v = s.engine v := by cases v <;> rfl
@[simp] theorem select_port (u : Variant) : (select s u).port v = s.port v := by cases v <;> rfl
@[simp] theorem select_cmd (u : Variant) : (select s u).cmd = s.cmd := rfl
@[simp] theorem select_host (u : Variant) : (select s u).host = s.host := rfl
@[simp] theorem select_hostLog (u : Variant) : (select s u).hostLog = s.hostLog := rfl
@[simp] theorem select_schedule (u : Variant) : (select s u).schedule = s.schedule.tail := rfl
@[simp] theorem select_cur (u : Variant) : (select s u).cur = u := rfl
@[simp] theorem select_freeCount (u : Variant) : (select s u).freeCount = s.freeCount := rfl

@[simp] theorem onCur_engine_cur (f : (v : Variant) → Engine v → Engine v) :
    (s.onCur f).engine s.cur = f s.cur (s.engine s.cur) := by simp [State.onCur]

theorem onCur_engine_ne (f : (v : Variant) → Engine v → Engine v) (h : v ≠ s.cur) : (s.onCur f).engine v = s.engine v := by
  simp [State.onCur, State.engine_setEngine_ne _ _ _ h]

@[simp] theorem onCur_port (f : (v : Variant) → Engine v → Engine v) : (s.onCur f).port v = s.port v := by
  simp [State.onCur]
@[simp] theorem onCur_cmd (f : (v : Variant) → Engine v → Engine v) : (s.onCur f).cmd = s.cmd := by simp [State.onCur]
@[simp] theorem onCur_host (f : (v : Variant) → Engine v → Engine v) : (s.onCur f).host = s.host := by simp [State.onCur]
@[simp] theorem onCur_hostLog (f : (v : Variant) → Engine v → Engine v) : (s.onCur f).hostLog = s.hostLog := by simp [State.onCur]
@[simp] theorem onCur_schedule (f : (v : Variant) → Engine v → Engine v) : (s.onCur f).schedule = s.schedule := by simp [State.onCur]
@[simp] theorem onCur_cur (f : (v : Variant) → Engine v → Engine v) : (s.onCur f).cur = s.cur := by simp [State.onCur]
@[simp] theorem onCur_freeCount (f : (v : Variant) → Engine v → Engine v) : (s.onCur f).freeCount = s.freeCount := by simp [State.onCur]

/-- The step of one instance touches nothing but that instance. -/
theorem onCur_onlyEngine (f : (v : Variant) → Engine v → Engine v) : OnlyEngine s.cur s (s.onCur f) :=
  ⟨⟨fun u h => onCur_engine_ne s u f h, fun u => onCur_port s u f, by simp, by simp, by simp, by simp, by simp⟩, by simp⟩

end States

theorem Engine.inPhase_iff {v : Variant} {e : Engine v} {p : Phase} : e.inPhase p = true ↔ e.SEQ.PHASE = p.code := by
  simp [Engine.inPhase]

/-- An instance whose PHASE field is known is in that phase and no other. -/
theorem Engine.inPhase_of_code {v : Variant} {e : Engine v} {q : Phase} (h : e.SEQ.PHASE = q.code) (p : Phase) :
    e.inPhase p = decide (q = p) := by
  simp [Engine.inPhase, h, Phase.code_inj]

/-- An instance differs from itself in nothing. -/
theorem Engine.SameExcept.refl {v : Variant} (e : Engine v) (fs : List Field) : e.SameExcept fs e := by
  intro f _
  cases f <;> rfl

/-! The sequencer register as a word (R24). -/

@[simp] theorem seqPhase_toWord (q : Seq) : seqPhase q.toWord = q.PHASE := by
  exact BitVec.extractLsb'_append_eq_left (a := q.PHASE) (b := q.T)

@[simp] theorem seqT_toWord (q : Seq) : seqT q.toWord = q.T := by
  exact BitVec.extractLsb'_append_eq_right (a := q.PHASE) (b := q.T)

@[simp] theorem Seq.ofWord_toWord (q : Seq) : Seq.ofWord q.toWord = q := by simp [Seq.ofWord]

/-- What an instance in a phase performs next. -/
theorem nextInstr_of_code {s : State} {v : Variant} {p : Phase} (h : (s.engine v).SEQ.PHASE = p.code) :
    nextInstr s v = .ok (Instr.ofPhase p (s.engine v).SEQ.T) := by
  simp [nextInstr, decodeSeq, h]

end Sys2Proof.Machine
end

