-- ==== Sys2Proof/Laws/Memory.lean ====
section
/-! SUPPORT. The laws of the Block Buffer: what a read gives after a write, that every operation keeps the canonical form,
that canonical memories with equal bytes are equal, and the big-endian values. -/

namespace Sys2Proof.Machine

@[simp] theorem Memory.read_nil (a : Nat) : Memory.read [] a = 0#8 := rfl

@[simp] theorem Memory.wf_nil (size : Nat) : Memory.wf size [] = true := rfl

theorem Memory.wfFrom_cons {lo c : Nat} {x : Byte} {m : Memory} :
    Memory.wfFrom lo ((c, x) :: m) = true ↔ (lo ≤ c ∧ x ≠ 0#8) ∧ Memory.wfFrom (c + 1) m = true := by
  simp only [Memory.wfFrom, Bool.and_eq_true, decide_eq_true_eq]
  exact Iff.rfl

theorem Memory.wfFrom_mono {m : Memory} {lo lo' : Nat} (h : lo' ≤ lo) (hm : Memory.wfFrom lo m = true) :
    Memory.wfFrom lo' m = true := by
  cases m with
  | nil => rfl
  | cons c m =>
    obtain ⟨c, x⟩ := c
    rw [Memory.wfFrom_cons] at hm ⊢
    exact ⟨⟨le_trans h hm.1.1, hm.1.2⟩, hm.2⟩

/-- Below the lowest listed address everything reads as an unlisted address does. -/
theorem Memory.read_below {m : Memory} {lo a : Nat} (hm : Memory.wfFrom lo m = true) (h : a < lo) :
    Memory.read m a = 0#8 := by
  induction m generalizing lo with
  | nil => rfl
  | cons c m ih =>
    obtain ⟨c, x⟩ := c
    rw [Memory.wfFrom_cons] at hm
    have hne : c ≠ a := by omega
    simp only [Memory.read, if_neg hne]
    exact ih hm.2 (by omega)

theorem Memory.read_consCell {m : Memory} {lo a a' : Nat} {b : Byte} (hm : Memory.wfFrom lo m = true) (h : a < lo) :
    Memory.read (Memory.consCell a b m) a' = if a' = a then b else Memory.read m a' := by
  unfold Memory.consCell
  by_cases hb : b = Memory.unlisted
  · rw [if_pos hb]
    by_cases ha : a' = a
    · rw [if_pos ha, ha, hb, Memory.read_below hm h]; rfl
    · rw [if_neg ha]
  · rw [if_neg hb]
    by_cases ha : a' = a
    · subst ha; simp [Memory.read]
    · simp [Memory.read, ha, Ne.symm ha]

theorem Memory.wfFrom_consCell {m : Memory} {lo a : Nat} {b : Byte} (hm : Memory.wfFrom (a + 1) m = true) (h : lo ≤ a) :
    Memory.wfFrom lo (Memory.consCell a b m) = true := by
  unfold Memory.consCell
  split
  · exact Memory.wfFrom_mono (by omega) hm
  · rename_i hb
    exact Memory.wfFrom_cons.2 ⟨⟨h, hb⟩, hm⟩

/-- What a read gives after a write: the byte written at that address, the old byte elsewhere. -/
theorem Memory.read_write {m : Memory} {lo : Nat} (hm : Memory.wfFrom lo m = true) (a a' : Nat) (b : Byte) :
    Memory.read (Memory.write m a b) a' = if a' = a then b else Memory.read m a' := by
  induction m generalizing lo with
  | nil => exact Memory.read_consCell (lo := a + 1) rfl (by omega)
  | cons c m ih =>
    obtain ⟨c, x⟩ := c
    have hc := Memory.wfFrom_cons.1 hm
    unfold Memory.write
    split
    · rename_i h
      exact Memory.read_consCell (lo := c) (Memory.wfFrom_cons.2 ⟨⟨le_refl c, hc.1.2⟩, hc.2⟩) h
    · split
      · rename_i h
        subst h
        rw [Memory.read_consCell hc.2 (by omega)]
        by_cases ha : a' = a
        · simp [ha]
        · simp [Memory.read, ha, Ne.symm ha]
      · rename_i h1 h2
        simp only [Memory.read]
        by_cases hca : c = a'
        · subst hca
          rw [if_pos rfl, if_neg (Ne.symm h2), if_pos rfl]
        · rw [if_neg hca, ih hc.2, if_neg hca]

theorem Memory.wfFrom_write {m : Memory} {lo a : Nat} {b : Byte} (hm : Memory.wfFrom lo m = true) (h : lo ≤ a) :
    Memory.wfFrom lo (Memory.write m a b) = true := by
  induction m generalizing lo with
  | nil => exact Memory.wfFrom_consCell rfl h
  | cons c m ih =>
    obtain ⟨c, x⟩ := c
    have hc := Memory.wfFrom_cons.1 hm
    unfold Memory.write
    split
    · rename_i hlt
      exact Memory.wfFrom_consCell (Memory.wfFrom_cons.2 ⟨⟨by omega, hc.1.2⟩, hc.2⟩) h
    · split
      · rename_i heq
        subst heq
        exact Memory.wfFrom_consCell hc.2 h
      · exact Memory.wfFrom_cons.2 ⟨hc.1, ih hc.2 (by omega)⟩

theorem Memory.all_write {m : Memory} {p : Nat → Bool} {a : Nat} {b : Byte} (hm : m.all (fun c => p c.1) = true)
    (h : p a = true) : (Memory.write m a b).all (fun c => p c.1) = true := by
  have key : ∀ m' : Memory, m'.all (fun c => p c.1) = true →
      (Memory.consCell a b m').all (fun c => p c.1) = true := by
    intro m' h'
    unfold Memory.consCell
    split
    · exact h'
    · simp only [List.all_cons, h, Bool.true_and]; exact h'
  induction m with
  | nil => exact key [] rfl
  | cons c m ih =>
    obtain ⟨c, x⟩ := c
    have hc : p c = true ∧ m.all (fun c => p c.1) = true := by
      simpa only [List.all_cons, Bool.and_eq_true] using hm
    unfold Memory.write
    split
    · exact key _ hm
    · split
      · exact key _ hc.2
      · simp only [List.all_cons, hc.1, Bool.true_and]
        exact ih hc.2

theorem Memory.wf_iff {size : Nat} {m : Memory} :
    Memory.wf size m = true ↔ Memory.wfFrom 0 m = true ∧ m.all (fun c => decide (c.1 < size)) = true := by
  simp [Memory.wf]

/-- A write within the buffer keeps the canonical form. -/
theorem Memory.wf_write {size : Nat} {m : Memory} {a : Nat} {b : Byte} (hm : Memory.wf size m = true) (h : a < size) :
    Memory.wf size (Memory.write m a b) = true := by
  rw [Memory.wf_iff] at hm ⊢
  exact ⟨Memory.wfFrom_write hm.1 (Nat.zero_le _),
    Memory.all_write (p := fun c => decide (c < size)) hm.2 (decide_eq_true h)⟩

theorem Memory.read_write_wf {size : Nat} {m : Memory} (hm : Memory.wf size m = true) (a a' : Nat) (b : Byte) :
    Memory.read (Memory.write m a b) a' = if a' = a then b else Memory.read m a' :=
  Memory.read_write (Memory.wf_iff.1 hm).1 a a' b

/-- A write of several bytes within the buffer keeps the canonical form. -/
theorem Memory.wf_writeBytes {size : Nat} {m : Memory} {a : Nat} {bs : List Byte} (hm : Memory.wf size m = true)
    (h : a + bs.length ≤ size) : Memory.wf size (Memory.writeBytes m a bs) = true := by
  induction bs generalizing m a with
  | nil => exact hm
  | cons b bs ih =>
    simp only [List.length_cons] at h
    exact ih (Memory.wf_write hm (by omega)) (by omega)

/-- What a read gives after a write of several bytes. -/
theorem Memory.read_writeBytes {size : Nat} {m : Memory} {a : Nat} {bs : List Byte} (hm : Memory.wf size m = true)
    (h : a + bs.length ≤ size) (a' : Nat) :
    Memory.read (Memory.writeBytes m a bs) a' =
      if hx : a ≤ a' ∧ a' < a + bs.length then bs[a' - a]'(by omega) else Memory.read m a' := by
  induction bs generalizing m a with
  | nil =>
    rw [dif_neg (by simp only [List.length_nil]; omega)]
    rfl
  | cons b bs ih =>
    simp only [List.length_cons] at h
    have hw := Memory.wf_write (b := b) hm (show a < size by omega)
    simp only [Memory.writeBytes]
    rw [ih hw (by omega)]
    by_cases h1 : a + 1 ≤ a' ∧ a' < a + 1 + bs.length
    · rw [dif_pos h1, dif_pos (by simp only [List.length_cons]; omega)]
      have he : a' - a = (a' - (a + 1)) + 1 := by omega
      simp only [he, List.getElem_cons_succ]
    · rw [dif_neg h1, Memory.read_write_wf hm]
      by_cases h2 : a' = a
      · subst h2
        rw [if_pos rfl, dif_pos (by simp only [List.length_cons]; omega)]
        simp
      · rw [if_neg h2, dif_neg (by simp only [List.length_cons]; omega)]

/-- A filled memory is canonical. -/
theorem Memory.wf_fill (f : Nat → Byte) {n size : Nat} (h : n ≤ size) : Memory.wf size (Memory.fill f n) = true := by
  induction n with
  | zero => rfl
  | succ n ih => exact Memory.wf_write (ih (by omega)) (by omega)

theorem Memory.read_fill (f : Nat → Byte) (n a : Nat) :
    Memory.read (Memory.fill f n) a = if a < n then f a else 0#8 := by
  induction n with
  | zero => simp [Memory.fill]
  | succ n ih =>
    simp only [Memory.fill]
    rw [Memory.read_write_wf (Memory.wf_fill f (le_refl n)), ih]
    by_cases h : a = n
    · subst h; simp
    · rw [if_neg h]
      by_cases h2 : a < n
      · rw [if_pos h2, if_pos (by omega)]
      · rw [if_neg h2, if_neg (by omega)]

/-- Beyond a canonical buffer everything reads as an unlisted address does. -/
theorem Memory.read_beyond {size : Nat} {m : Memory} (hm : Memory.wf size m = true) {a : Nat} (h : size ≤ a) :
    Memory.read m a = 0#8 := by
  have hall := (Memory.wf_iff.1 hm).2
  clear hm
  induction m with
  | nil => rfl
  | cons c m ih =>
    obtain ⟨c, x⟩ := c
    simp only [List.all_cons, Bool.and_eq_true, decide_eq_true_eq] at hall
    have hne : c ≠ a := by omega
    simp only [Memory.read, if_neg hne]
    exact ih hall.2

/-- Canonical memories whose every byte reads the same are the same data. -/
theorem Memory.eq_of_read {m m' : Memory} {lo : Nat} (hm : Memory.wfFrom lo m = true) (hm' : Memory.wfFrom lo m' = true)
    (h : ∀ a, Memory.read m a = Memory.read m' a) : m = m' := by
  induction m generalizing m' lo with
  | nil =>
    cases m' with
    | nil => rfl
    | cons c m' =>
      obtain ⟨c, x⟩ := c
      have hc := Memory.wfFrom_cons.1 hm'
      have := h c
      simp only [Memory.read, if_true] at this
      exact absurd this.symm hc.1.2
  | cons c m ih =>
    obtain ⟨c, x⟩ := c
    have hc := Memory.wfFrom_cons.1 hm
    cases m' with
    | nil =>
      have := h c
      simp only [Memory.read, if_true] at this
      exact absurd this hc.1.2
    | cons c' m' =>
      obtain ⟨c', x'⟩ := c'
      have hc' := Memory.wfFrom_cons.1 hm'
      rcases Nat.lt_trichotomy c c' with hlt | heq | hgt
      · have := h c
        rw [Memory.read_below (lo := c') (Memory.wfFrom_cons.2 ⟨⟨le_refl _, hc'.1.2⟩, hc'.2⟩) hlt] at this
        simp only [Memory.read, if_true] at this
        exact absurd this hc.1.2
      · subst heq
        have hx : x = x' := by simpa [Memory.read] using h c
        subst hx
        congr 1
        refine ih hc.2 hc'.2 fun a => ?_
        by_cases hca : c = a
        · subst hca
          rw [Memory.read_below hc.2 (by omega), Memory.read_below hc'.2 (by omega)]
        · simpa [Memory.read, hca] using h a
      · have := h c'
        rw [Memory.read_below (lo := c) (Memory.wfFrom_cons.2 ⟨⟨le_refl _, hc.1.2⟩, hc.2⟩) hgt] at this
        simp only [Memory.read, if_true] at this
        exact absurd this.symm hc'.1.2

/-! ### Big-endian values -/

@[simp] theorem beBytes_length (n x : Nat) : (beBytes n x).length = n := by
  induction n with
  | zero => rfl
  | succ n ih => simp [beBytes, ih]

/-- The value of `n` bytes of `x` is `x` modulo `2^(8n)`. -/
theorem beValue_beBytes (n x : Nat) : beValue (beBytes n x) = x % 2 ^ (8 * n) := by
  induction n with
  | zero => simp [beBytes, beValue, Nat.mod_one]
  | succ n ih =>
    simp only [beBytes, beValue, beBytes_length, ih, BitVec.toNat_ofNat]
    have e : 2 ^ (8 * (n + 1)) = 2 ^ (8 * n) * 2 ^ 8 := by rw [← pow_add]; ring_nf
    rw [e, Nat.mod_mul]
    ring

/-- A big-endian read depends on the bytes alone. -/
theorem Memory.readBE_congr {m m' : Memory} {a n : Nat}
    (h : ∀ a', a ≤ a' → a' < a + n → Memory.read m a' = Memory.read m' a') : Memory.readBE m a n = Memory.readBE m' a n := by
  induction n generalizing a with
  | zero => rfl
  | succ n ih =>
    simp only [Memory.readBE]
    rw [h a (le_refl _) (by omega), ih fun a' h1 h2 => h a' (by omega) (by omega)]

/-- A big-endian read is the value of the bytes at its addresses. -/
theorem Memory.readBE_eq_beValue (m : Memory) (a n : Nat) :
    Memory.readBE m a n = beValue ((List.range' a n).map (Memory.read m)) := by
  induction n generalizing a with
  | zero => rfl
  | succ n ih => simp [Memory.readBE, List.range'_succ, beValue, ih]

theorem beValue_lt (bs : List Byte) : beValue bs < 2 ^ (8 * bs.length) := by
  induction bs with
  | nil => simp [beValue]
  | cons b bs ih =>
    simp only [beValue, List.length_cons]
    have hb := b.isLt
    have e : 2 ^ (8 * (bs.length + 1)) = 2 ^ 8 * 2 ^ (8 * bs.length) := by rw [← pow_add]; ring_nf
    have : b.toNat * 2 ^ (8 * bs.length) ≤ (2 ^ 8 - 1) * 2 ^ (8 * bs.length) := Nat.mul_le_mul_right _ (by omega)
    rw [e]
    have h1 : (2 ^ 8 - 1) * 2 ^ (8 * bs.length) + 2 ^ (8 * bs.length) = 2 ^ 8 * 2 ^ (8 * bs.length) := by ring
    omega

theorem Memory.readBE_lt (m : Memory) (a n : Nat) : Memory.readBE m a n < 2 ^ (8 * n) := by
  rw [Memory.readBE_eq_beValue]
  simpa using beValue_lt ((List.range' a n).map (Memory.read m))

/-- A big-endian read of bytes just written. -/
theorem Memory.readBE_writeBytes {size : Nat} {m : Memory} {a : Nat} {bs : List Byte} (hm : Memory.wf size m = true)
    (h : a + bs.length ≤ size) : Memory.readBE (Memory.writeBytes m a bs) a bs.length = beValue bs := by
  rw [Memory.readBE_eq_beValue]
  congr 1
  apply List.ext_getElem
  · simp
  · intro i h1 h2
    simp only [List.getElem_map, List.getElem_range']
    rw [Memory.read_writeBytes hm h, dif_pos (by omega)]
    simp

/-- Writing several bytes leaves every address outside them alone. -/
theorem Memory.read_writeBytes_outside {size : Nat} {m : Memory} {a : Nat} {bs : List Byte}
    (hm : Memory.wf size m = true) (h : a + bs.length ≤ size) {a' : Nat} (ho : a' < a ∨ a + bs.length ≤ a') :
    Memory.read (Memory.writeBytes m a bs) a' = Memory.read m a' := by
  rw [Memory.read_writeBytes hm h, dif_neg (by omega)]

end Sys2Proof.Machine
end

