-- ==== Sys2Proof/Laws/Step.lean ====
section
/-! SUPPORT. What a READ, a host's act and a step can do, said once. -/

namespace Sys2Proof.Machine

/-! ### READ -/

/-- Everything READ does with an answer (R135, R197): an error is entered, or the stream has ended, or the bytes are
taken; and under which conditions. -/
theorem Engine.readAnswer_cases {v : Variant} (e : Engine v) (a : SrcAnswer) :
    (∃ kind, a = .err kind ∧ e.readAnswer a = e.raise (.srcIoFailure kind)) ∨
    (∃ d, a = .data d ∧ (e.requestSize < d.length ∨ (0 < d.length ∧ e.PADDED = true)) ∧
      e.readAnswer a = e.raise .srcProtocol) ∨
    (a = .data [] ∧ e.readAnswer a = e.setPhase .pad) ∨
    (∃ d, a = .data d ∧ 0 < d.length ∧ d.length ≤ e.requestSize ∧ e.PADDED = false ∧
      2 ^ (v.BCW - 3) ≤ e.BC.toNat + d.length ∧ e.readAnswer a = e.raise .lengthOverflow) ∨
    (∃ d, ∃ h : e.CNT.val + d.length ≤ v.B, a = .data d ∧ 0 < d.length ∧ e.PADDED = false ∧
      e.BC.toNat + d.length < 2 ^ (v.BCW - 3) ∧ e.readAnswer a = e.takeBytes d h) := by
  cases a with
  | err kind => exact .inl ⟨kind, rfl, rfl⟩
  | data d =>
    have hcnt := e.CNT.isLt
    refine .inr ?_
    by_cases h5 : e.requestSize < d.length
    · exact .inl ⟨d, rfl, .inl h5, by simp [Engine.readAnswer, h5]⟩
    by_cases h6 : 0 < d.length ∧ e.PADDED = true
    · exact .inl ⟨d, rfl, .inr h6, by simp only [Engine.readAnswer, dif_neg h5, if_pos h6]⟩
    refine .inr ?_
    by_cases h7 : d.length = 0
    · rw [List.length_eq_zero_iff] at h7
      subst h7
      exact .inl ⟨rfl, by simp [Engine.readAnswer]⟩
    have hpos : 0 < d.length := Nat.pos_of_ne_zero h7
    have hpad : e.PADDED = false := by
      cases hp : e.PADDED with
      | false => rfl
      | true => exact absurd ⟨hpos, hp⟩ h6
    refine .inr ?_
    by_cases h8 : 2 ^ (v.BCW - 3) ≤ e.BC.toNat + d.length
    · exact .inl ⟨d, rfl, hpos, Nat.le_of_not_lt h5, hpad, h8,
        by simp only [Engine.readAnswer, dif_neg h5, if_neg h6, if_neg h7, if_pos h8]⟩
    · have h : e.CNT.val + d.length ≤ v.B := by
        simp only [Engine.requestSize] at h5
        omega
      exact .inr ⟨d, h, rfl, hpos, hpad, Nat.lt_of_not_le h8,
        by simp only [Engine.readAnswer, dif_neg h5, if_neg h6, if_neg h7, if_neg h8]⟩

/-- READ waits while its source does not answer. -/
theorem execRead_wait {s : State}
    (h : (s.port s.cur).source.answer (s.engine s.cur).requestSize = none) : execRead s = .next s := by
  simp only [execRead, h]

/-- READ when its source answers. -/
theorem execRead_answer {s : State} {a : SrcAnswer} {src : Source}
    (h : (s.port s.cur).source.answer (s.engine s.cur).requestSize = some (a, src)) :
    execRead s = .next ((s.setPort s.cur ⟨src, (s.port s.cur).requests ++ [(s.engine s.cur).requestSize]⟩).setEngine s.cur
      ((s.engine s.cur).readAnswer a)) := by
  simp only [execRead, h]

/-! ### Phases -/

/-- An instance holds exactly when its phase is IDLE, DONE or ERROR. -/
theorem Engine.holds_iff {v : Variant} {e : Engine v} :
    e.holds = true ↔ e.SEQ.PHASE = Phase.idle.code ∨ e.SEQ.PHASE = Phase.done.code ∨ e.SEQ.PHASE = Phase.error.code := by
  simp [Engine.holds, Engine.inPhase, or_assoc]

/-- A legal phase is busy or holds, never both (R35). -/
theorem Engine.busy_iff_not_holds {v : Variant} {e : Engine v} (h : e.SEQ.PHASE.toNat ≤ 11) :
    e.busy = true ↔ e.holds = false := by
  obtain ⟨p, hp⟩ := Phase.exists_code h
  simp only [Engine.busy, Engine.holds, Engine.inPhase, hp]
  cases p <;> decide

/-! ### A step -/

/-- What a command taken is: START or CLEAR, on the port, for an instance that holds (R82, R87 a). -/
theorem commandTaken_spec {s : State} {i : Instr} (h : commandTaken s = some i) :
    ∃ w v, s.cmd = some w ∧ decodeCmd w = .ok i ∧ commandTarget i = some v ∧ (s.engine v).holds = true ∧
      (i = .start v ∨ i = .clear v) := by
  unfold commandTaken at h
  split at h
  · cases h
  · rename_i w hw
    split at h
    · cases h
    · rename_i j hj
      split at h
      · cases h
      · rename_i v hv
        split at h
        · rename_i hh
          cases h
          refine ⟨w, v, hw, hj, hv, hh, ?_⟩
          cases i <;> simp_all [commandTarget]
        · cases h

/-- Everything a step can do when it answers a next state: a command is taken, or the host moves, or an instance performs
the instruction its SEQ names. -/
theorem step_cases {s t : State} (h : step s = .next t) :
    (∃ i, commandTaken s = some i ∧ exec i (s.setCmd none) = .next t) ∨
    (commandTaken s = none ∧ nextAgent s = .host ∧ t = hostTurn (advance s)) ∨
    (∃ v i, commandTaken s = none ∧ nextAgent s = .engine v ∧ nextInstr s v = .ok i ∧ exec i (select s v) = .next t) := by
  unfold step at h
  split at h
  · rename_i i hi
    exact .inl ⟨i, hi, h⟩
  · rename_i hc
    split at h
    · rename_i ha
      cases h
      exact .inr (.inl ⟨hc, ha, rfl⟩)
    · rename_i v ha
      split at h
      · rename_i i hi
        exact .inr (.inr ⟨v, i, hc, ha, hi, h⟩)
      · cases h

/-- An instruction decoded from a sequencer register is the one of a phase, with the register's index. -/
theorem nextInstr_spec {s : State} {v : Variant} {i : Instr} (h : nextInstr s v = .ok i) :
    ∃ p : Phase, (s.engine v).SEQ.PHASE = p.code ∧ i = Instr.ofPhase p (s.engine v).SEQ.T := by
  simp only [nextInstr, decodeSeq, seqPhase_toWord, seqT_toWord] at h
  split at h
  · rename_i p hp
    cases h
    refine ⟨p, ?_, rfl⟩
    have key : ∀ c : BitVec 4, ∀ q : Phase, Phase.ofCode c = some q → c = q.code := by
      intro c
      have hall : ∀ c : BitVec 4, ∀ q, Phase.ofCode c = some q → q.code = c := by
        intro c
        have : ∀ c : BitVec 4, (Phase.ofCode c).all (fun q => decide (q.code = c)) = true := by decide
        intro q hq
        have := this c
        rw [hq] at this
        simpa using this
      exact fun q hq => (hall c q hq).symm
    exact key _ _ hp
  · cases h

/-- The step runs the decoded instruction of the instance that moves. -/
theorem step_engine {s : State} {v : Variant} {i : Instr} (hc : commandTaken s = none) (ha : nextAgent s = .engine v)
    (hi : nextInstr s v = .ok i) : step s = exec i (select s v) := by
  simp only [step, hc, ha, hi]

/-- The step takes the command that can be taken. -/
theorem step_command {s : State} {i : Instr} (hc : commandTaken s = some i) :
    step s = exec i (s.setCmd none) := by
  simp only [step, hc]

/-- A sequencer instruction touches nothing outside the instance that moves, but for READ, which asks its source. -/
theorem execOfPhase_frame {s t : State} {p : Phase} {T : BitVec 7} (h : exec (Instr.ofPhase p T) s = .next t) :
    (∀ u, u ≠ s.cur → t.engine u = s.engine u ∧ t.port u = s.port u) ∧ t.cmd = s.cmd ∧ t.host = s.host ∧
    t.hostLog = s.hostLog ∧ t.schedule = s.schedule ∧ t.cur = s.cur ∧ t.freeCount = s.freeCount ∧
    (t.port s.cur = s.port s.cur ∨
      (p = .read ∧ (t.port s.cur).requests = (s.port s.cur).requests ++ [(s.engine s.cur).requestSize])) := by
  by_cases hp : p = .read
  · subst hp
    simp only [Instr.ofPhase, exec] at h
    cases ha : (s.port s.cur).source.answer (s.engine s.cur).requestSize with
    | none => rw [execRead_wait ha] at h; cases h; simp
    | some q =>
      obtain ⟨a, src⟩ := q
      rw [execRead_answer ha] at h; cases h
      exact ⟨fun u hu => ⟨by simp [State.engine_setEngine_ne _ _ _ hu], by simp [State.port_setPort_ne _ _ _ hu]⟩,
        by simp⟩
  · have : ∃ e, t = s.setEngine s.cur e := by
      cases p <;> simp only [Instr.ofPhase, exec] at h
      case read => exact absurd rfl hp
      case round =>
        unfold execRound at h
        split at h
        · cases h; exact ⟨_, rfl⟩
        · cases h
      all_goals first | (cases h; exact ⟨_, rfl⟩) | (cases h; exact ⟨s.engine s.cur, by simp⟩)
    obtain ⟨e, rfl⟩ := this
    refine ⟨fun u hu => ⟨by simp [State.engine_setEngine_ne _ _ _ hu], by simp⟩, by simp⟩

/-- Everything a sequencer instruction can do to its instance: the micro-operation's step and no other. -/
theorem execOfPhase_engine {s t : State} {p : Phase} {T : BitVec 7} (h : exec (Instr.ofPhase p T) s = .next t) :
    (t.engine s.cur = s.engine s.cur ∧ p ∈ [Phase.idle, .done, .error, .read]) ∨
    (p = .read ∧ ∃ a, t.engine s.cur = (s.engine s.cur).readAnswer a) ∨
    (p = .clrbuf ∧ t.engine s.cur = (s.engine s.cur).clrbufStep) ∨ (p = .pad ∧ t.engine s.cur = (s.engine s.cur).padStep) ∨
    (p = .parse ∧ t.engine s.cur = (s.engine s.cur).parseStep) ∨ (p = .expand ∧ t.engine s.cur = (s.engine s.cur).expandStep) ∨
    (p = .load ∧ t.engine s.cur = (s.engine s.cur).loadStep) ∨ (p = .round ∧ ∃ hh, t.engine s.cur = (s.engine s.cur).roundStep T hh) ∨
    (p = .fold ∧ t.engine s.cur = (s.engine s.cur).foldStep) ∨ (p = .emit ∧ t.engine s.cur = (s.engine s.cur).emitStep) := by
  cases p <;> simp only [Instr.ofPhase, exec] at h
  case read =>
    cases ha : (s.port s.cur).source.answer (s.engine s.cur).requestSize with
    | none => rw [execRead_wait ha] at h; cases h; simp
    | some q =>
      obtain ⟨a, src⟩ := q
      rw [execRead_answer ha] at h; cases h
      right; left; exact ⟨rfl, a, by simp⟩
  case round =>
    unfold execRound at h
    split at h
    · rename_i hh; cases h; simp; exact hh
    · cases h
  all_goals (cases h; simp)

/-- A step of an instance is its phase's instruction. -/
theorem step_runs_phase {s t : State} {v : Variant} (hc : commandTaken s = none) (ha : nextAgent s = .engine v)
    (h : step s = .next t) :
    ∃ p : Phase, (s.engine v).SEQ.PHASE = p.code ∧ exec (Instr.ofPhase p (s.engine v).SEQ.T) (select s v) = .next t := by
  rcases step_cases h with ⟨i, hi, _⟩ | ⟨_, hh, _⟩ | ⟨v', i, _, hv', hi, hx⟩
  · rw [hc] at hi; cases hi
  · rw [ha] at hh; cases hh
  · rw [ha] at hv'; cases hv'
    obtain ⟨p, hp, rfl⟩ := nextInstr_spec hi
    exact ⟨p, hp, hx⟩

/-- The step of the host. -/
theorem step_host {s : State} (hc : commandTaken s = none) (ha : nextAgent s = .host) :
    step s = .next (hostTurn (advance s)) := by
  simp only [step, hc, ha]

/-- Everything the host's turn can do. -/
theorem hostTurn_cases (s : State) :
    hostTurn s = s ∨ ∃ a rest, s.host = a :: rest ∧ a.waits s = false ∧ hostTurn s = (hostEffect s a).setHost rest := by
  unfold hostTurn
  split
  · exact .inl rfl
  · rename_i a rest h
    split
    · exact .inl rfl
    · rename_i hw
      exact .inr ⟨a, rest, h, by simpa using hw, rfl⟩

/-- A run of any machine goes on from the state its first step answers. -/
theorem coreRun_next (M : Host.Core) {s t : M.State} (h : M.step s = .next t) (k : Nat) :
    Host.Core.run M (k + 1) s = Host.Core.run M k t := by
  simp only [Host.Core.run, h]

/-- A run goes on from the state its first step answers. -/
theorem run_next {s t : State} (h : step s = .next t) (k : Nat) :
    Host.Core.run Sys2Proof.core (k + 1) s = Host.Core.run Sys2Proof.core k t :=
  coreRun_next Sys2Proof.core h k

end Sys2Proof.Machine
end

