-- ==== Sys2Proof/Laws/Pad.lean ====
section
/-! SUPPORT. What PAD leaves in every field of its instance (R138). -/

namespace Sys2Proof.Machine

variable {v : Variant} (e : Engine v)

/-- PAD leaves every element but BUF, PADDED, TERMINAL and PHASE alone. -/
theorem Engine.padStep_frame : e.padStep.R = e.R ∧ e.padStep.H = e.H ∧ e.padStep.M = e.M ∧ e.padStep.WS = e.WS ∧
    e.padStep.DIGEST = e.DIGEST ∧ e.padStep.CNT = e.CNT ∧ e.padStep.BC = e.BC ∧ e.padStep.CAUSE = e.CAUSE ∧
    e.padStep.ERRKIND = e.ERRKIND ∧ e.padStep.SEQ = ⟨Phase.parse.code, e.SEQ.T⟩ := by
  unfold Engine.padStep Engine.padLength Engine.padMarker
  split
  · split <;> split <;> simp
  · simp

@[simp] theorem Engine.padStep_R : e.padStep.R = e.R := e.padStep_frame.1
@[simp] theorem Engine.padStep_H : e.padStep.H = e.H := e.padStep_frame.2.1
@[simp] theorem Engine.padStep_M : e.padStep.M = e.M := e.padStep_frame.2.2.1
@[simp] theorem Engine.padStep_WS : e.padStep.WS = e.WS := e.padStep_frame.2.2.2.1
@[simp] theorem Engine.padStep_DIGEST : e.padStep.DIGEST = e.DIGEST := e.padStep_frame.2.2.2.2.1
@[simp] theorem Engine.padStep_CNT : e.padStep.CNT = e.CNT := e.padStep_frame.2.2.2.2.2.1
@[simp] theorem Engine.padStep_BC : e.padStep.BC = e.BC := e.padStep_frame.2.2.2.2.2.2.1
@[simp] theorem Engine.padStep_CAUSE : e.padStep.CAUSE = e.CAUSE := e.padStep_frame.2.2.2.2.2.2.2.1
@[simp] theorem Engine.padStep_ERRKIND : e.padStep.ERRKIND = e.ERRKIND := e.padStep_frame.2.2.2.2.2.2.2.2.1
@[simp] theorem Engine.padStep_SEQ : e.padStep.SEQ = ⟨Phase.parse.code, e.SEQ.T⟩ := e.padStep_frame.2.2.2.2.2.2.2.2.2

/-- The marker is appended whenever end-of-stream has been seen. -/
@[simp] theorem Engine.padStep_PADDED : e.padStep.PADDED = (e.PADDED || decide (e.CNT.val < v.B)) := by
  unfold Engine.padStep Engine.padLength Engine.padMarker
  split
  · split <;> split <;> simp_all
  · simp_all

/-- The block becomes terminal exactly when the length field fits. -/
@[simp] theorem Engine.padStep_TERMINAL : e.padStep.TERMINAL = (e.TERMINAL || decide (e.CNT.val < v.B - v.LB)) := by
  unfold Engine.padStep Engine.padLength Engine.padMarker
  split
  · split <;> split <;> simp_all
  · rename_i h
    have : ¬ e.CNT.val < v.B - v.LB := by omega
    simp [this]

/-- BUF once the marker is in its place. -/
def Engine.markedBuf : Memory :=
  if e.CNT.val < v.B ∧ e.PADDED = false then Memory.write e.BUF e.CNT.val 0x80#8 else e.BUF

/-- BUF after PAD: the marker, then the length field if it fits. -/
theorem Engine.padStep_BUF : e.padStep.BUF = if e.CNT.val < v.B - v.LB then
    Memory.writeBytes e.markedBuf (v.B - v.LB) (beBytes v.LB (e.BC.toNat * 8)) else e.markedBuf := by
  unfold Engine.padStep Engine.padLength Engine.padMarker Engine.markedBuf
  split
  · rename_i h
    split <;> split <;> simp_all
  · rename_i h
    have : ¬ e.CNT.val < v.B - v.LB := by omega
    simp [this, h]

theorem Engine.markedBuf_wf (h : Memory.wf v.B e.BUF = true) : Memory.wf v.B e.markedBuf = true := by
  unfold Engine.markedBuf
  split
  · rename_i hc
    exact Memory.wf_write h hc.1
  · exact h

theorem Engine.padStep_BUF_wf (h : Memory.wf v.B e.BUF = true) : Memory.wf v.B e.padStep.BUF = true := by
  rw [Engine.padStep_BUF]
  split
  · exact Memory.wf_writeBytes (e.markedBuf_wf h) (by rw [beBytes_length]; exact lengthField_in_block v)
  · exact e.markedBuf_wf h

/-- The length field of a block PAD has made terminal (R138 line 6). -/
theorem Engine.padStep_lengthField (h : Memory.wf v.B e.BUF = true) (hc : e.CNT.val < v.B - v.LB) :
    Memory.readBE e.padStep.BUF (v.B - v.LB) v.LB = e.BC.toNat * 8 % 2 ^ (8 * v.LB) := by
  rw [Engine.padStep_BUF, if_pos hc]
  have := Memory.readBE_writeBytes (bs := beBytes v.LB (e.BC.toNat * 8)) (e.markedBuf_wf h)
    (a := v.B - v.LB) (by rw [beBytes_length]; exact lengthField_in_block v)
  rw [beBytes_length] at this
  rw [this, beValue_beBytes]

end Sys2Proof.Machine
end

