-- ==== Sys2Proof/Laws/Inv.lean ====
section
/-! SUPPORT. The invariant of an instance, kept by each of its micro-operations, by error entry, by START and by going to
IDLE; the phase is known before each, and after it. -/

namespace Sys2Proof.Machine

/-- `T + 1` does not wrap below `N` (R25). -/
theorem index_succ {v : Variant} {t : BitVec 7} (h : t.toNat < v.N) : (t + 1#7).toNat = t.toNat + 1 := by
  have hN := v.N_le
  rw [BitVec.toNat_add]
  have : (1#7).toNat = 1 := rfl
  rw [this]
  omega

/-- Below the length guard, adding the bytes of an answer does not wrap BC (R110, R136). -/
theorem counter_add {v : Variant} {c : BitVec v.BCW} {n : Nat} (h : c.toNat + n < 2 ^ (v.BCW - 3)) :
    (c + BitVec.ofNat v.BCW n).toNat = c.toNat + n := by
  have hp : 2 ^ (v.BCW - 3) ≤ 2 ^ v.BCW := Nat.pow_le_pow_right (by decide) (Nat.sub_le _ _)
  rw [BitVec.toNat_add, BitVec.toNat_ofNat, Nat.mod_eq_of_lt (show n < 2 ^ v.BCW by omega), Nat.mod_eq_of_lt (by omega)]

variable {v : Variant} {e : Engine v}

theorem Engine.Inv.clrbufStep (hi : e.Inv) (hp : e.SEQ.PHASE = Phase.clrbuf.code) : e.clrbufStep.Inv := by
  have hq : e.clrbufStep.SEQ.PHASE = Phase.read.code := rfl
  have hin : ∀ p, e.inPhase p = decide (Phase.clrbuf = p) := Engine.inPhase_of_code hp
  constructor <;> simp [Engine.inAny, Engine.inPhase_of_code hq]
  case phase_legal => exact Phase.code_le _
  case index_le => exact hi.index_le
  case cause_none => exact hi.cause_none (by simp [hin])
  case errkind => exact hi.errkind
  case counter_bound => exact hi.counter_bound (by simp [hin])
  case read_room => exact v.B_pos
  case not_terminal => exact hi.not_terminal (by simp [Engine.inAny, hin])
  case terminal_padded => exact hi.terminal_padded (by simp [hin])
  case counter_fetch => exact hi.counter_blocks (by simp [Engine.inAny, hin])

theorem Engine.Inv.raise (hi : e.Inv) (hp : e.SEQ.PHASE = Phase.read.code) (x : Cause) : (e.raise x).Inv := by
  have hq : (e.raise x).SEQ.PHASE = Phase.error.code := rfl
  have hin : ∀ p, e.inPhase p = decide (Phase.read = p) := Engine.inPhase_of_code hp
  constructor <;> simp [Engine.inAny, Engine.inPhase_of_code hq]
  case phase_legal => exact Phase.code_le _
  case index_le => exact hi.index_le
  case buf_wf => exact hi.buf_wf
  case cause_error => cases x <;> simp [Cause.code]
  case errkind => cases x <;> simp [Cause.code, Cause.kind]
  case counter_bound => exact hi.counter_bound (by simp [hin])
  case terminal_padded => exact hi.terminal_padded (by simp [hin])

/-- The end of the stream in a READ. -/
theorem Engine.Inv.readEnd (hi : e.Inv) (hp : e.SEQ.PHASE = Phase.read.code) : (e.setPhase .pad).Inv := by
  have hq : (e.setPhase .pad).SEQ.PHASE = Phase.pad.code := rfl
  have hin : ∀ p, e.inPhase p = decide (Phase.read = p) := Engine.inPhase_of_code hp
  constructor <;> simp [Engine.inAny, Engine.inPhase_of_code hq]
  case phase_legal => exact Phase.code_le _
  case index_le => exact hi.index_le
  case buf_wf => exact hi.buf_wf
  case cause_none => exact hi.cause_none (by simp [hin])
  case errkind => exact hi.errkind
  case counter_bound => exact hi.counter_bound (by simp [hin])
  case tail_zero => exact hi.tail_zero (by simp [Engine.inAny, hin])
  case not_terminal => exact hi.not_terminal (by simp [Engine.inAny, hin])
  case padded_empty => simpa using hi.padded_empty (by simp [Engine.inAny, hin])
  case terminal_padded => exact hi.terminal_padded (by simp [hin])
  case counter_fetch => exact hi.counter_fetch (by simp [Engine.inAny, hin])

theorem Engine.Inv.takeBytes (hi : e.Inv) (hp : e.SEQ.PHASE = Phase.read.code) (d : List Byte)
    (h : e.CNT.val + d.length ≤ v.B) (hpad : e.PADDED = false)
    (hb : e.BC.toNat + d.length < 2 ^ (v.BCW - 3)) : (e.takeBytes d h).Inv := by
  have hin : ∀ p, e.inPhase p = decide (Phase.read = p) := Engine.inPhase_of_code hp
  have hbc := counter_add hb
  have hwf := Memory.wf_writeBytes hi.buf_wf h
  have hnt := hi.not_terminal (by simp [Engine.inAny, hin])
  have hcause := hi.cause_none (by simp [hin])
  have hzero : ∀ a, e.CNT.val + d.length ≤ a → Memory.read (Memory.writeBytes e.BUF e.CNT.val d) a = 0#8 := by
    intro a ha
    rw [Memory.read_writeBytes_outside hi.buf_wf h (.inr ha)]
    exact hi.tail_zero (by simp [Engine.inAny, hin]) a (by omega)
  have hmod : (e.BC.toNat + d.length) % v.B = (e.CNT.val + d.length) % v.B := by
    rw [Nat.add_mod, hi.counter_fetch (by simp [Engine.inAny, hin]) hpad, ← Nat.add_mod]
  by_cases hf : e.CNT.val + d.length = v.B
  · have hq : (e.takeBytes d h).SEQ.PHASE = Phase.pad.code := by simp [hf]
    constructor <;> simp [Engine.inAny, Engine.inPhase_of_code hq, hpad, hnt, hcause, -BitVec.toNat_add, hbc]
    case phase_legal => exact Phase.code_le _
    case index_le => exact hi.index_le
    case buf_wf => exact hwf
    case errkind => exact hi.errkind (by simp [hcause])
    case counter_bound => exact hb
    case tail_zero => exact hzero
    case counter_fetch => exact hmod
  · have hq : (e.takeBytes d h).SEQ.PHASE = Phase.read.code := by simp [hf]
    constructor <;> simp [Engine.inAny, Engine.inPhase_of_code hq, hpad, hnt, hcause, -BitVec.toNat_add, hbc]
    case phase_legal => exact Phase.code_le _
    case index_le => exact hi.index_le
    case buf_wf => exact hwf
    case errkind => exact hi.errkind (by simp [hcause])
    case counter_bound => exact hb
    case read_room => omega
    case tail_zero => exact hzero
    case counter_fetch => exact hmod

theorem Engine.Inv.readAnswer (hi : e.Inv) (hp : e.SEQ.PHASE = Phase.read.code) (a : SrcAnswer) :
    (e.readAnswer a).Inv := by
  rcases e.readAnswer_cases a with ⟨k, _, h⟩ | ⟨d, _, _, h⟩ | ⟨_, h⟩ | ⟨d, _, _, _, _, _, h⟩ | ⟨d, hd, _, _, hpad, hb, h⟩
  · rw [h]; exact hi.raise hp _
  · rw [h]; exact hi.raise hp _
  · rw [h]; exact hi.readEnd hp
  · rw [h]; exact hi.raise hp _
  · rw [h]; exact hi.takeBytes hp d hd hpad hb

theorem Engine.Inv.padStep (hi : e.Inv) (hp : e.SEQ.PHASE = Phase.pad.code) : e.padStep.Inv := by
  have hq : e.padStep.SEQ.PHASE = Phase.parse.code := by simp
  have hin : ∀ p, e.inPhase p = decide (Phase.pad = p) := Engine.inPhase_of_code hp
  have hnt := hi.not_terminal (by simp [Engine.inAny, hin])
  have hcause := hi.cause_none (by simp [hin])
  have hbound := hi.counter_bound (by simp [hin])
  have hLB := v.LB_lt_B
  constructor <;> try simp [Engine.inAny, Engine.inPhase_of_code hq, hnt, hcause]
  case phase_legal => exact Phase.code_le _
  case index_le => exact hi.index_le
  case buf_wf => exact e.padStep_BUF_wf hi.buf_wf
  case errkind => exact hi.errkind (by simp [hcause])
  case counter_bound => exact hbound
  case terminal_padded => omega
  case counter_blocks =>
    intro hpad hfull
    have hc := e.CNT.isLt
    have hcnt : e.CNT.val = v.B := by omega
    rw [hi.counter_fetch (by simp [Engine.inAny, hin]) hpad, hcnt, Nat.mod_self]
  case length_field =>
    intro hc
    rw [e.padStep_lengthField hi.buf_wf hc, Nat.mod_eq_of_lt]
    have h8 : 2 ^ (8 * v.LB) = 2 ^ (v.BCW - 3) * 8 := by cases v <;> rfl
    rw [h8]
    omega

theorem Engine.Inv.parseStep (hi : e.Inv) (hp : e.SEQ.PHASE = Phase.parse.code) : e.parseStep.Inv := by
  have hq : e.parseStep.SEQ.PHASE = Phase.expand.code := rfl
  have hin : ∀ p, e.inPhase p = decide (Phase.parse = p) := Engine.inPhase_of_code hp
  constructor <;> simp [Engine.inAny, Engine.inPhase_of_code hq]
  case phase_legal => exact Phase.code_le _
  case index_le => exact hi.index_le
  case buf_wf => exact hi.buf_wf
  case cause_none => exact hi.cause_none (by simp [hin])
  case errkind => exact hi.errkind
  case counter_bound => exact hi.counter_bound (by simp [hin])
  case terminal_padded => exact hi.terminal_padded (by simp [hin])
  case counter_blocks => exact hi.counter_blocks (by simp [Engine.inAny, hin])
  case length_field => exact hi.length_field (by simp [Engine.inAny, hin])
  case parsed => rfl

theorem Engine.Inv.expandStep (hi : e.Inv) (hp : e.SEQ.PHASE = Phase.expand.code) : e.expandStep.Inv := by
  have hq : e.expandStep.SEQ.PHASE = Phase.load.code := rfl
  have hin : ∀ p, e.inPhase p = decide (Phase.expand = p) := Engine.inPhase_of_code hp
  constructor <;> simp [Engine.inAny, Engine.inPhase_of_code hq]
  case phase_legal => exact Phase.code_le _
  case index_le => exact hi.index_le
  case buf_wf => exact hi.buf_wf
  case cause_none => exact hi.cause_none (by simp [hin])
  case errkind => exact hi.errkind
  case counter_bound => exact hi.counter_bound (by simp [hin])
  case terminal_padded => exact hi.terminal_padded (by simp [hin])
  case counter_blocks => exact hi.counter_blocks (by simp [Engine.inAny, hin])
  case length_field => exact hi.length_field (by simp [Engine.inAny, hin])
  case parsed => exact hi.parsed (by simp [Engine.inAny, hin])

theorem Engine.Inv.loadStep (hi : e.Inv) (hp : e.SEQ.PHASE = Phase.load.code) : e.loadStep.Inv := by
  have hq : e.loadStep.SEQ.PHASE = Phase.round.code := rfl
  have hin : ∀ p, e.inPhase p = decide (Phase.load = p) := Engine.inPhase_of_code hp
  constructor <;> simp [Engine.inAny, Engine.inPhase_of_code hq]
  case phase_legal => exact Phase.code_le _
  case index_round => exact v.N_pos
  case buf_wf => exact hi.buf_wf
  case cause_none => exact hi.cause_none (by simp [hin])
  case errkind => exact hi.errkind
  case counter_bound => exact hi.counter_bound (by simp [hin])
  case terminal_padded => exact hi.terminal_padded (by simp [hin])
  case counter_blocks => exact hi.counter_blocks (by simp [Engine.inAny, hin])
  case length_field => exact hi.length_field (by simp [Engine.inAny, hin])
  case parsed => exact hi.parsed (by simp [Engine.inAny, hin])
  case expanded => exact hi.expanded (by simp [Engine.inAny, hin])
  case rounds => rfl

theorem Engine.Inv.roundStep (hi : e.Inv) (hp : e.SEQ.PHASE = Phase.round.code) (h : e.SEQ.T.toNat < v.N) :
    (e.roundStep e.SEQ.T h).Inv := by
  have hin : ∀ p, e.inPhase p = decide (Phase.round = p) := Engine.inPhase_of_code hp
  have hs := index_succ h
  have hr : (e.roundStep e.SEQ.T h).R = roundsTo v e.WS e.H (e.SEQ.T.toNat + 1) h := by
    rw [Engine.roundStep_R, hi.rounds (by simp [hin]) h.le]
    rfl
  have hcause := hi.cause_none (by simp [hin])
  by_cases hf : e.SEQ.T.toNat + 1 = v.N
  · have hq : (e.roundStep e.SEQ.T h).SEQ.PHASE = Phase.fold.code := by simp [hf]
    constructor <;> simp [Engine.inAny, Engine.inPhase_of_code hq, -BitVec.toNat_add, hs, hcause, -Engine.roundStep_R]
    case phase_legal => exact Phase.code_le _
    case index_le => omega
    case index_after => exact hf
    case buf_wf => exact hi.buf_wf
    case errkind => exact hi.errkind (by simp [hcause])
    case counter_bound => exact hi.counter_bound (by simp [hin])
    case terminal_padded => exact hi.terminal_padded (by simp [hin])
    case counter_blocks => exact hi.counter_blocks (by simp [Engine.inAny, hin])
    case length_field => exact hi.length_field (by simp [Engine.inAny, hin])
    case parsed => exact hi.parsed (by simp [Engine.inAny, hin])
    case expanded => exact hi.expanded (by simp [Engine.inAny, hin])
    case rounds_done =>
      rw [hr]
      unfold allRounds
      congr 1
  · have hq : (e.roundStep e.SEQ.T h).SEQ.PHASE = Phase.round.code := by simp [hf]
    constructor <;> simp [Engine.inAny, Engine.inPhase_of_code hq, -BitVec.toNat_add, hs, hcause, -Engine.roundStep_R]
    case phase_legal => exact Phase.code_le _
    case index_le => omega
    case index_round => omega
    case buf_wf => exact hi.buf_wf
    case errkind => exact hi.errkind (by simp [hcause])
    case counter_bound => exact hi.counter_bound (by simp [hin])
    case terminal_padded => exact hi.terminal_padded (by simp [hin])
    case counter_blocks => exact hi.counter_blocks (by simp [Engine.inAny, hin])
    case length_field => exact hi.length_field (by simp [Engine.inAny, hin])
    case parsed => exact hi.parsed (by simp [Engine.inAny, hin])
    case expanded => exact hi.expanded (by simp [Engine.inAny, hin])
    case rounds => intro _; exact hr

theorem Engine.Inv.foldStep (hi : e.Inv) (hp : e.SEQ.PHASE = Phase.fold.code) : e.foldStep.Inv := by
  have hin : ∀ p, e.inPhase p = decide (Phase.fold = p) := Engine.inPhase_of_code hp
  have hcause := hi.cause_none (by simp [hin])
  cases ht : e.TERMINAL with
  | true =>
    have hq : e.foldStep.SEQ.PHASE = Phase.emit.code := by simp [ht]
    constructor <;> simp [Engine.inAny, Engine.inPhase_of_code hq, ht, hcause]
    case phase_legal => exact Phase.code_le _
    case index_le => exact hi.index_le
    case index_after => exact hi.index_after (by simp [Engine.inAny, hin])
    case buf_wf => exact hi.buf_wf
    case errkind => exact hi.errkind (by simp [hcause])
    case counter_bound => exact hi.counter_bound (by simp [hin])
    case terminal_padded => exact hi.terminal_padded (by simp [hin]) ht
    case length_field => exact hi.length_field (by simp [Engine.inAny, hin]) ht
    case parsed => exact hi.parsed (by simp [Engine.inAny, hin])
    case expanded => exact hi.expanded (by simp [Engine.inAny, hin])
  | false =>
    have hq : e.foldStep.SEQ.PHASE = Phase.clrbuf.code := by simp [ht]
    constructor <;> simp [Engine.inAny, Engine.inPhase_of_code hq, ht, hcause]
    case phase_legal => exact Phase.code_le _
    case index_le => exact hi.index_le
    case buf_wf => exact hi.buf_wf
    case errkind => exact hi.errkind (by simp [hcause])
    case counter_bound => exact hi.counter_bound (by simp [hin])
    case counter_blocks => exact hi.counter_blocks (by simp [Engine.inAny, hin])

theorem Engine.Inv.emitStep (hi : e.Inv) (hp : e.SEQ.PHASE = Phase.emit.code) : e.emitStep.Inv := by
  have hq : e.emitStep.SEQ.PHASE = Phase.done.code := rfl
  have hin : ∀ p, e.inPhase p = decide (Phase.emit = p) := Engine.inPhase_of_code hp
  constructor <;> simp [Engine.inAny, Engine.inPhase_of_code hq]
  case phase_legal => exact Phase.code_le _
  case index_le => exact hi.index_le
  case index_after => exact hi.index_after (by simp [Engine.inAny, hin])
  case buf_wf => exact hi.buf_wf
  case cause_none => exact hi.cause_none (by simp [hin])
  case errkind => exact hi.errkind
  case counter_bound => exact hi.counter_bound (by simp [hin])
  case terminal_padded => exact hi.terminal_padded (by simp [hin])
  case emitted_terminal => exact hi.emitted_terminal (by simp [Engine.inAny, hin])
  case length_field => exact hi.length_field (by simp [Engine.inAny, hin])
  case parsed => exact hi.parsed (by simp [Engine.inAny, hin])
  case expanded => exact hi.expanded (by simp [Engine.inAny, hin])

/-- START gives a state that meets the invariant, from any state whose Block Buffer is canonical. -/
theorem Engine.Inv.startStep (hw : Memory.wf v.B e.BUF = true) (k : Nat) : (e.startStep k).Inv := by
  have hq : (e.startStep k).SEQ.PHASE = Phase.clrbuf.code := rfl
  constructor <;> simp [Engine.inAny, Engine.inPhase_of_code hq]
  case phase_legal => exact Phase.code_le _
  case buf_wf => exact hw

/-- CLEAR and the hardware reset give a state that meets the invariant, from any state. -/
theorem Engine.Inv.toIdle (e : Engine v) (k : Nat) : (e.toIdle k).Inv := by
  have hq : (e.toIdle k).SEQ.PHASE = Phase.idle.code := rfl
  constructor <;> try simp [Engine.inAny, Engine.inPhase_of_code hq]
  case phase_legal => exact Phase.code_le _
  case buf_wf => exact Memory.wf_fill _ (le_refl _)

end Sys2Proof.Machine
end

