-- ==== Sys2Proof/Laws/PerInstr.lean ====
section
/-! SUPPORT. Per instruction: the word of a well-formed instruction decodes to it, one lemma per constructor. -/

namespace Sys2Proof.Laws.RoundTrip

/-- The round trip of one instruction: decoding its word gives it back, operand and all. -/
def Statement (i : Instr) : Prop := i.wf = true → decode (encode i) = .ok i

/-- Decoding a sequencer word gives the instruction of its phase and index. -/
theorem decode_seqWord (p : Phase) (t : BitVec 7) : decode (.seq (seqWord p t)) = .ok (Instr.ofPhase p t) := by
  have h1 : seqPhase (seqWord p t) = p.code := BitVec.extractLsb'_append_eq_left (a := p.code) (b := t)
  have h2 : seqT (seqWord p t) = t := BitVec.extractLsb'_append_eq_right (a := p.code) (b := t)
  simp only [decode, decodeSeq, h1, h2, Phase.ofCode_code]

theorem start (v : Variant) : Statement (.start v) := fun _ => by cases v <;> rfl
theorem clear (v : Variant) : Statement (.clear v) := fun _ => by cases v <;> rfl
theorem idle : Statement .idle := fun _ => decode_seqWord .idle 0#7
theorem clrbuf : Statement .clrbuf := fun _ => decode_seqWord .clrbuf 0#7
theorem read : Statement .read := fun _ => decode_seqWord .read 0#7
theorem pad : Statement .pad := fun _ => decode_seqWord .pad 0#7
theorem parse : Statement .parse := fun _ => decode_seqWord .parse 0#7
theorem expand : Statement .expand := fun _ => decode_seqWord .expand 0#7
theorem load : Statement .load := fun _ => decode_seqWord .load 0#7
theorem round (t : BitVec 7) : Statement (.round t) := fun _ => decode_seqWord .round t
theorem fold : Statement .fold := fun _ => decode_seqWord .fold 0#7
theorem emit : Statement .emit := fun _ => decode_seqWord .emit 0#7
theorem done : Statement .done := fun _ => decode_seqWord .done 0#7
theorem error : Statement .error := fun _ => decode_seqWord .error 0#7

end Sys2Proof.Laws.RoundTrip
end

