-- ==== Sys2Proof/Laws/Primes.lean ====
section
/-! SUPPORT. The first 80 primes, in order: what the generating rule of the constant tables counts on
(spec/41_constants.md R120). -/

namespace Sys2Proof.Laws

/-- Trial division, by structural recursion. -/
def isPrimeNum (n : Nat) : Bool := decide (2 ≤ n) && (List.range n).all fun d => decide (d < 2) || decide (n % d ≠ 0)

theorem isPrimeNum_iff (n : Nat) : isPrimeNum n = true ↔ Nat.Prime n := by
  simp only [isPrimeNum, Bool.and_eq_true, decide_eq_true_eq, List.all_eq_true, List.mem_range, Bool.or_eq_true, ne_eq]
  rw [Nat.prime_def_lt']
  refine and_congr_right fun _ => forall_congr' fun d => ⟨fun h h2 hd hdvd => ?_, fun h hd => ?_⟩
  · have := h hd
    have := Nat.mod_eq_zero_of_dvd hdvd
    omega
  · by_contra hc
    rw [not_or, not_not] at hc
    exact h (by omega) hd (Nat.dvd_of_mod_eq_zero hc.2)

/-- The first 80 primes. -/
def firstPrimes : List Nat :=
  [2, 3, 5, 7, 11, 13, 17, 19, 23, 29, 31, 37, 41, 43, 47, 53, 59, 61, 67, 71] ++
  [73, 79, 83, 89, 97, 101, 103, 107, 109, 113, 127, 131, 137, 139, 149, 151, 157, 163, 167, 173] ++
  [179, 181, 191, 193, 197, 199, 211, 223, 227, 229, 233, 239, 241, 251, 257, 263, 269, 271, 277, 281] ++
  [283, 293, 307, 311, 313, 317, 331, 337, 347, 349, 353, 359, 367, 373, 379, 383, 389, 397, 401, 409]

/-- The table holds the primes below 410, in order. -/
theorem firstPrimes_eq : (List.range 410).filter isPrimeNum = firstPrimes := by decide +kernel

theorem count_eq_length (p : Nat → Bool) (n : Nat) :
    Nat.count (fun k => p k = true) n = ((List.range n).filter p).length := by
  induction n with
  | zero => simp
  | succ n ih =>
    rw [Nat.count_succ, ih, List.range_succ, List.filter_append, List.length_append]
    cases h : p n <;> simp [h]

/-- As many numbers of a filtered range lie below an entry as its place says. -/
theorem count_getElem_filter (p : Nat → Bool) (m t : Nat) (L : List Nat) (hL : (List.range m).filter p = L)
    (h : t < L.length) : p L[t] = true ∧ Nat.count (fun k => p k = true) L[t] = t := by
  have hmem : L[t] ∈ (List.range m).filter p := hL ▸ List.getElem_mem h
  obtain ⟨hlt, hq⟩ := List.mem_filter.1 hmem
  rw [List.mem_range] at hlt
  refine ⟨hq, ?_⟩
  rw [count_eq_length]
  generalize hx : L[t] = q at hlt hq
  have hsplit : L = (List.range q).filter p ++ (q :: ((List.range (m - (q + 1))).map (q + 1 + ·)).filter p) := by
    conv_lhs => rw [← hL, show m = q + 1 + (m - (q + 1)) by omega, List.range_add, List.range_succ, List.filter_append,
      List.filter_append]
    simp [hq]
  have hnd : L.Nodup := hL ▸ List.nodup_range.filter _
  have hi : ((List.range q).filter p).length < L.length := by
    conv_rhs => rw [hsplit]
    simp
  refine (List.Nodup.getElem_inj_iff hnd (hi := hi) (hj := h)).1 ?_
  rw [hx, List.getElem_of_eq hsplit]
  simp

/-- The primes in order (R120). -/
theorem nth_prime (t : Nat) (h : t < firstPrimes.length) : Nat.nth Nat.Prime t = firstPrimes[t] := by
  have hp : Nat.Prime = fun n => isPrimeNum n = true := funext fun n => propext (isPrimeNum_iff n).symm
  obtain ⟨h1, h2⟩ := count_getElem_filter isPrimeNum 410 t firstPrimes firstPrimes_eq h
  rw [hp]
  conv_lhs => rw [← h2]
  exact Nat.nth_count (p := fun n => isPrimeNum n = true) h1

end Sys2Proof.Laws
end

