-- ==== Sys2Proof/Tests/Slice0.lean ====
section
/-! SUPPORT. Tests on small states. Words are written out from spec/30_encoding.md, values are those of
spec/95_test_vectors.md (the section stands beside each test). The last part shows, for every statement with
hypotheses, a concrete input that meets all of them. -/

namespace Sys2Proof.Tests

open Sys2Proof Sys2Proof.Machine

/-! ### Well-formedness: an ill-formed term for each check -/

theorem test_wf_round_80 : (Instr.round 80#7).wf = false := by decide
theorem test_wf_round_79 : (Instr.round 79#7).wf = true := by decide
theorem test_wfFor_e256_64 : (Instr.round 64#7).wfFor .e256 = false := by decide
theorem test_wfFor_e512_80 : (Instr.round 80#7).wfFor .e512 = false := by decide

/-! ### Decoding: the word of every constructor, bit by bit (R81, R83, R84, R86) -/

theorem test_decode_start : decode (.cmd 0b00000010#8) = .ok (.start .e256) := by decide
theorem test_decode_start_512 : decode (.cmd 0b00000011#8) = .ok (.start .e512) := by decide
theorem test_decode_clear : decode (.cmd 0b00000100#8) = .ok (.clear .e256) := by decide
theorem test_decode_clear_512 : decode (.cmd 0b00000101#8) = .ok (.clear .e512) := by decide
theorem test_decode_idle : decode (.seq 0b00000000000#11) = .ok .idle := by decide
theorem test_decode_clrbuf : decode (.seq 0b00010000000#11) = .ok .clrbuf := by decide
theorem test_decode_read : decode (.seq 0b00100000000#11) = .ok .read := by decide
theorem test_decode_pad : decode (.seq 0b00110000000#11) = .ok .pad := by decide
theorem test_decode_parse : decode (.seq 0b01000000000#11) = .ok .parse := by decide
theorem test_decode_expand : decode (.seq 0b01010000000#11) = .ok .expand := by decide
theorem test_decode_load : decode (.seq 0b01100000000#11) = .ok .load := by decide
/-- `(ROUND, 17) = 0x391` (95 section 2.8). -/
theorem test_decode_round : decode (.seq 0b01110010001#11) = .ok (.round 17#7) := by decide
theorem test_decode_fold : decode (.seq 0b10001000000#11) = .ok .fold := by decide
theorem test_decode_emit : decode (.seq 0b10011000000#11) = .ok .emit := by decide
/-- `(DONE, 64) = 0x540` (95 section 2.8). -/
theorem test_decode_done : decode (.seq 0b10101000000#11) = .ok .done := by decide
/-- `(ERROR, 0) = 0x580` (95 section 2.8). -/
theorem test_decode_error : decode (.seq 0b10110000000#11) = .ok .error := by decide

/-- The undefined command words of 95 section 2.8. -/
theorem test_undefined_commands : ∀ w ∈ [0x00#8, 0x01#8, 0x06#8, 0x08#8, 0x12#8, 0x82#8, 0xff#8],
    decodeCmd w = .error (.undefinedCommand w) := by decide

theorem test_unreachable_codes : ∀ c ∈ [0x600#11, 0x680#11, 0x700#11, 0x7ff#11],
    decodeSeq c = .error (.unreachablePhase (seqPhase c)) := by decide

/-- A command row has 8 bits in the opcode table, a sequencer row 11, in whole bytes 16. -/
theorem test_table_words : decodeTableWord 8 0x02 = some (.start .e256) ∧ decodeTableWord 16 0x391 = some (.round 17#7) ∧
    decodeTableWord 11 0x480 = some .emit ∧ decodeTableWord 8 0x00 = none ∧ decodeTableWord 16 0x600 = none ∧
    decodeTableWord 8 0x100 = none ∧ decodeTableWord 16 0x800 = none := by decide

/-! ### One step on a small state -/

/-- The state after reset with this instance in place, moving next. -/
def onto (v : Variant) (e : Engine v) (src : Source) : State :=
  { (State.reset.setEngine v e).setPort v ⟨src, []⟩ with cur := v }

/-- The instance after an instruction, if there is a next state. -/
def after (i : Instr) (v : Variant) (e : Engine v) (src : Source) : Option (Engine v) :=
  match exec i (onto v e src) with
  | .next t => some (t.engine v)
  | .fault _ => none
  | .refused _ => none

/-- An instance in a phase. -/
def at256 (p : Phase) (t : BitVec 7) : Engine .e256 := { Engine.reset .e256 with SEQ := ⟨p.code, t⟩ }

/-- An instance in a phase. -/
def at512 (p : Phase) (t : BitVec 7) : Engine .e512 := { Engine.reset .e512 with SEQ := ⟨p.code, t⟩ }

/-- The bytes of "abc". -/
def abc : List Byte := [0x61#8, 0x62#8, 0x63#8]

/-- BUF of the "abc" block (95 section 2.2). -/
def abcBlock : Memory := [(0, 0x61#8), (1, 0x62#8), (2, 0x63#8), (3, 0x80#8), (63, 0x18#8)]

/-- 95 section 2.8, first row. -/
theorem test_start : ((after (.start .e256) .e256 (at256 .done 64#7) (.script [])).map fun e =>
    (e.H[0], e.H[7], e.BC, e.SEQ, e.status)) = some (0x6a09e667#32, 0x5be0cd19#32, 0#64, ⟨1#4, 0#7⟩, 0x01#8) := by decide

/-- 95 section 2.8: a busy instance does not take it. -/
theorem test_start_busy : after (.start .e256) .e256 (at256 .round 17#7) (.script []) = some (at256 .round 17#7) := by
  decide +kernel

/-- 95 section 2.8, the row of `0x05`. -/
theorem test_clear : ((after (.clear .e512) .e512 { at512 .error 80#7 with CAUSE := 1#2, ERRKIND := 7#8 } (.script [])).map
    fun e => (e.SEQ, e.CAUSE, e.ERRKIND, e.status)) = some (⟨0#4, 0#7⟩, 0#2, 0#8, 0x00#8) := by decide

theorem test_idle : after .idle .e256 (at256 .idle 0#7) (.script []) = some (at256 .idle 0#7) := by decide +kernel
theorem test_done : after .done .e256 (at256 .done 64#7) (.script []) = some (at256 .done 64#7) := by decide +kernel
theorem test_error : after .error .e256 (at256 .error 0#7) (.script []) = some (at256 .error 0#7) := by decide +kernel

/-- 95 section 2.2, CLRBUF: `BC` is left alone. -/
theorem test_clrbuf : ((after .clrbuf .e256
    { at256 .clrbuf 64#7 with BUF := [(0, 0x61#8), (63, 0x61#8)], CNT := 64, BC := 64#64 } (.script [])).map
    fun e => (e.BUF, e.CNT.val, e.BC, e.SEQ)) = some ([], 0, 64#64, ⟨2#4, 64#7⟩) := by decide

/-- 95 section 2.2: `SrcRead(64) -> 3`. -/
theorem test_read_abc : ((after .read .e256 (at256 .read 0#7) (.cursor abc)).map fun e => (e.BUF, e.CNT.val, e.BC, e.SEQ)) =
    some ([(0, 0x61#8), (1, 0x62#8), (2, 0x63#8)], 3, 3#64, ⟨2#4, 0#7⟩) := by decide

/-- 95 section 2.9: two bytes for a request of one, at the end of the counter: CAUSE is 2, not 3. -/
theorem test_read_priority : ((after .read .e256
    { at256 .read 64#7 with CNT := 63, BC := 0x1fffffffffffffff#64 } (.script [.data [1#8, 2#8]])).map
    fun e => (e.SEQ, e.CAUSE, e.ERRKIND, e.CNT.val, e.BC)) =
    some (⟨11#4, 64#7⟩, 2#2, 0#8, 63, 0x1fffffffffffffff#64) := by decide

/-- 95 section 2.2: the "abc" block. -/
theorem test_pad_abc : ((after .pad .e256
    { at256 .pad 0#7 with BUF := [(0, 0x61#8), (1, 0x62#8), (2, 0x63#8)], CNT := 3, BC := 3#64 } (.script [])).map
    fun e => (e.BUF, e.PADDED, e.TERMINAL, e.SEQ.PHASE)) = some (abcBlock, true, true, 4#4) := by decide

/-- 95 section 2.2, 119 bytes under P512: the marker fits, the length does not. -/
theorem test_pad_boundary : ((after .pad .e512 { at512 .pad 0#7 with CNT := 119, BC := 119#128 } (.script [])).map
    fun e => (e.BUF, e.PADDED, e.TERMINAL)) = some ([(119, 0x80#8)], true, false) := by decide

/-- 95 section 2.3: the first byte of a word is its most significant one. -/
theorem test_parse : ((after .parse .e256 { at256 .parse 0#7 with BUF := abcBlock } (.script [])).map
    fun e => (e.M[0], e.M[1], e.M[15], e.SEQ.PHASE)) = some (0x61626380#32, 0#32, 0x18#32, 5#4) := by decide

/-- The Parsed Block of "abc" (95 section 2.3). -/
def abcWords : Vector (BitVec 32) 16 := #v[0x61626380, 0, 0, 0, 0, 0, 0, 0, 0, 0, 0, 0, 0, 0, 0, 0x18]

/-- 95 section 2.4. -/
theorem test_expand : ((after .expand .e256 { at256 .expand 0#7 with M := abcWords } (.script [])).map
    fun e => (e.WS[0], e.WS[18], e.WS[63])) = some (0x61626380#32, 0x7da86405#32, 0x12b1edeb#32) := by decide +kernel

/-- 95 section 2.4: the wrapping additions. -/
theorem test_expand_wraps : ((after .expand .e512
    { at512 .expand 0#7 with M := Vector.replicate 16 0xffffffffffffffff#64 } (.script [])).map
    fun e => (e.WS[17], e.WS[79])) = some (0x05fffffffffffffc#64, 0x838168ce14e43c5a#64) := by decide +kernel

/-- 95 section 2.5, after LOAD. -/
theorem test_load : ((after .load .e256 { at256 .load 64#7 with H := H0 .e256 } (.script [])).map
    fun e => (e.R[0], e.R[7], e.SEQ)) = some (0x6a09e667#32, 0x5be0cd19#32, ⟨7#4, 0#7⟩) := by decide

/-- 95 section 2.5, corner case: every sum wraps. -/
theorem test_round_wraps : ((after (.round 0#7) .e512 { at512 .round 0#7 with
      R := Vector.replicate 8 0xffffffffffffffff#64, WS := Vector.replicate 80 0xffffffffffffffff#64 } (.script [])).map
    fun e => (e.R[0], e.R[4], e.R[7], e.SEQ)) =
    some (0x428a2f98d728ae1c#64, 0x428a2f98d728ae1d#64, 0xffffffffffffffff#64, ⟨7#4, 1#7⟩) := by decide +kernel

/-- 95 section 2.5, row 63 of P256: the last round leaves to FOLD with `T = 64`. -/
theorem test_round_last : ((after (.round 63#7) .e256 { at256 .round 63#7 with
      R := #v[0xd39a2165, 0x04d24d6c, 0xb85e2ce9, 0xb6ae8fff, 0xfb121210, 0x948d25b6, 0x961f4894, 0xb21bad3d]
      WS := Vector.replicate 64 0x12b1edeb#32 } (.script [])).map
    fun e => (e.R[0], e.R[4], e.SEQ)) = some (0x506e3058#32, 0x5ef50f24#32, ⟨8#4, 64#7⟩) := by decide +kernel

/-- 95 section 2.6. -/
theorem test_fold : ((after .fold .e256 { at256 .fold 64#7 with
      H := H0 .e256, R := #v[0x506e3058, 0, 0, 0, 0, 0, 0, 0], TERMINAL := true } (.script [])).map
    fun e => (e.H[0], e.H[1], e.SEQ)) = some (0xba7816bf#32, 0xbb67ae85#32, ⟨9#4, 64#7⟩) := by decide

/-- 95 section 2.6: without TERMINAL the next block follows. -/
theorem test_fold_next : ((after .fold .e256 { at256 .fold 64#7 with
      H := Vector.replicate 8 0xffffffff#32, R := Vector.replicate 8 1#32 } (.script [])).map
    fun e => (e.H[7], e.SEQ.PHASE)) = some (0#32, 1#4) := by decide

/-- 95 section 2.7. -/
theorem test_emit : ((after .emit .e512 { at512 .emit 80#7 with
      H := #v[0xddaf35a193617aba, 0xcc417349ae204131, 0, 0x0a9eeee64b55d39a, 0, 0, 0, 0x2a9ac94fa54ca49f] }
      (.script [])).map fun e => (e.DIGEST[0], e.DIGEST[7], e.DIGEST[8], e.DIGEST[24], e.DIGEST[63], e.SEQ)) =
    some (0xdd#8, 0xba#8, 0xcc#8, 0x0a#8, 0x9f#8, ⟨10#4, 80#7⟩) := by decide

/-! ### Word functions (95 section 2.1) -/

theorem test_sigmas_256 : (upperSigma0 .e256 0x6a09e667#32, upperSigma1 .e256 0x510e527f#32, lowerSigma0 .e256 0x61626380#32,
    lowerSigma1 .e256 0x01234567#32) = (0xce20b47e#32, 0x3587272b#32, 0x940e90ef#32, 0xca1f2864#32) := by decide

theorem test_sigmas_512 : (upperSigma0 .e512 0x6a09e667f3bcc908#64, upperSigma1 .e512 0x510e527fade682d1#64,
    lowerSigma0 .e512 0x0123456789abcdef#64, lowerSigma1 .e512 0x6162638000000000#64) =
    (0x08c4db56aac80c2a#64, 0x9427e33bb5c9dbca#64, 0x6f92c77c6c4f1aa1#64, 0x0a9699a24c700003#64) := by decide

theorem test_choose_majority : (choose 0x510e527f#32 0x9b05688c#32 0x1f83d9ab#32, majority 0x6a09e667#32 0xbb67ae85#32 0x3c6ef372#32) =
    (0x1f85c98c#32, 0x3a6fe667#32) := by decide

/-- 95 section 2.7. -/
theorem test_hex : hex [0x00#8, 0x0f#8, 0xf0#8, 0xff#8] = "000ff0ff".toList ∧
    unhex "000ff0ff".toList = some [0x00#8, 0x0f#8, 0xf0#8, 0xff#8] := by decide

/-- 95 section 2.3, byte order, in the reference function. -/
theorem test_parseBlock : ((parseBlock .e256 (Vector.ofFn fun i => BitVec.ofNat 8 i.val))[0],
    (parseBlock .e512 (Vector.ofFn fun i => BitVec.ofNat 8 i.val))[15]) = (0x00010203#32, 0x78797a7b7c7d7e7f#64) := by
  decide +kernel

/-- 95 section 2.2, the two blocks of 56 bytes: no marker in the second, and the length 0x1c0. -/
theorem test_messageBlocks : (messageBlocks .e256 (List.replicate 56 0x61#8)).map (fun b => (b[55], b[56], b[57], b[62], b[63])) =
    [(0x61#8, 0x80#8, 0x00#8, 0x00#8, 0x00#8), (0x00#8, 0x00#8, 0x00#8, 0x01#8, 0xc0#8)] := by decide +kernel

/-! ### The machine -/

theorem test_reset_memory_wf : Memory.wf 64 State.reset.e256.BUF = true ∧ Memory.wf 128 State.reset.e512.BUF = true := by
  decide

/-- Writing what an unlisted address reads as removes the entry. -/
theorem test_memory_canonical : Memory.write [(1, 5#8), (4, 6#8)] 4 0#8 = [(1, 5#8)] ∧
    Memory.write [(1, 5#8), (4, 6#8)] 2 7#8 = [(1, 5#8), (2, 7#8), (4, 6#8)] := by decide

/-- 95 section 2.8: host reads of an instance in DONE. -/
theorem test_host_reads : hostRead (onto .e256 (at256 .done 64#7) (.script [])) .e256 0x60#8 = .refused .reservedRegister ∧
    hostRead (onto .e256 (at256 .done 64#7) (.script [])) .e256 0x03#8 = .refused .reservedRegister ∧
    hostRead (onto .e256 (at256 .read 64#7) (.script [])) .e256 0x40#8 = .refused .digestNotReady ∧
    hostRead (onto .e512 (at512 .done 80#7) (.script [])) .e512 0x7f#8 = .value 0#8 := by decide

/-- A step takes the placed command word as the first instruction after reset. -/
theorem test_fetch_command : (match step (State.reset.withFetchWord 8 0x03) with
    | .next t => some (t.e512.SEQ, t.e256.SEQ, t.cmd)
    | _ => none) = some (⟨1#4, 0#7⟩, ⟨0#4, 0#7⟩, none) := by decide

/-- A step runs the placed sequencer word as the first instruction after reset; over zeros it leaves `K[17]` in `R[0]`
(spec/41_constants.md R122). -/
theorem test_fetch_sequencer : (match step (State.reset.withFetchWord 16 0x391) with
    | .next t => some (t.e512.SEQ, t.e512.R[0])
    | _ => none) = some (⟨7#4, 18#7⟩, 0xefbe4786384f25e3#64) := by decide +kernel

/-- Codes 12 to 15 stop the machine. -/
theorem test_fetch_unreachable : (match step (State.reset.withFetchWord 16 0x600) with
    | .fault f => some f
    | _ => none) = some .unreachablePhase := by decide

/-! ### Witnesses: inputs that meet the hypotheses of a statement together -/

/-- Both instances idle after the hardware reset, whatever the free values are. -/
def idleState : State := hardwareReset State.reset

/-- The machine's invariant holds of it. -/
theorem test_idleState_inv : idleState.Inv := by
  intro v
  cases v
  · exact Engine.Inv.toIdle _ _
  · exact Engine.Inv.toIdle _ _

/-- E256 about to READ the first block, as START and CLRBUF leave it. -/
def readingEngine : Engine .e256 := (((Engine.reset .e256).toIdle 0).startStep 0).clrbufStep

theorem test_readingEngine_inv : readingEngine.Inv :=
  (Engine.Inv.startStep (Engine.Inv.toIdle _ 0).buf_wf 0).clrbufStep rfl

/-- The machine with E256 about to READ from a source of "abc". -/
def readingState : State := onto .e256 readingEngine (.cursor abc)

/-- E256 in READ, its source silent. -/
def waitingState : State := onto .e256 (at256 .read 0#7) (.script [])

/-- E256 in ROUND 17, nothing offered. -/
def busyState : State := onto .e256 (at256 .round 17#7) (.script [])

/-- E256 in DONE. -/
def doneState : State := onto .e256 (at256 .done 64#7) (.script [])

/-- E256 in READ of "abc", E512 in IDLE. -/
def plainReadState : State := onto .e256 (at256 .read 0#7) (.cursor abc)

theorem witness_DecodeAndEncodeAgree : (Instr.round 79#7).wf = true ∧ decode (.cmd 5#8) = .ok (.clear .e512) ∧
    decode (.seq 0x3ff#11) = .ok (.round 127#7) ∧ decode (.seq 0x07f#11) = .ok .idle := by decide

theorem witness_FourCommandWordsAreDefined : (6#8 ≠ 0x02#8 ∧ 6#8 ≠ 0x03#8) ∧ 6#8 ≠ 0x04#8 ∧ 6#8 ≠ 0x05#8 := by decide

theorem witness_SequencerWordsDecodeByPhase : seqPhase 0x391#11 = 7#4 ∧ 12 ≤ (seqPhase 0x600#11).toNat ∧
    ((seqPhase 0x580#11).toNat < 12 ∧ seqPhase 0x580#11 ≠ 7#4 ∧ seqPhase 0x5ff#11 = seqPhase 0x580#11) := by decide

theorem witness_StartBeginsAFreshComputation : (State.reset.engine .e256).holds = true ∧
    (doneState.engine .e256).holds = true ∧ (busyState.engine .e256).holds = false := by decide

theorem witness_ClearReturnsToIdle : (State.reset.engine .e512).holds = true ∧
    (doneState.engine .e256).holds = true ∧ (busyState.engine .e256).holds = false := by decide

theorem witness_NothingSurvivesStartAndClrbuf : (State.reset.engine .e256).holds = true ∧
    (doneState.engine .e256).holds = true := by decide

theorem witness_HoldPhases_idle : (idleState.engine .e256).Inv ∧ (idleState.engine .e256).inPhase .idle = true :=
  ⟨test_idleState_inv .e256, rfl⟩

theorem witness_HoldPhases_done : (doneState.engine .e256).inPhase .done = true := by decide

theorem witness_HoldPhases_error : ((onto .e512 (at512 .error 0#7) (.script [])).engine .e512).inPhase .error = true := by
  decide

theorem witness_HoldPhases_step : (doneState.engine .e256).holds = true ∧ (∃ t, step doneState = .next t) ∧
    commandTaken doneState = none ∧ nextAgent doneState = .engine .e256 := ⟨by decide, ⟨_, rfl⟩, by decide, by decide⟩

/-- The five ways of a READ, at the boundaries of 95 section 2.9. -/
def readCases : List (Engine .e256 × SrcAnswer) :=
  [(at256 .read 0#7, .err 7#8),
   ({ at256 .read 64#7 with CNT := 63, BC := 0x1fffffffffffffff#64 }, .data [1#8, 2#8]),
   ({ at256 .read 0#7 with BC := 60#64, PADDED := true }, .data [1#8]),
   ({ at256 .read 0#7 with BC := 60#64, PADDED := true }, .data []),
   ({ at256 .read 64#7 with CNT := 63, BC := 0x1fffffffffffffff#64 }, .data [1#8]),
   ({ at256 .read 64#7 with CNT := 62, BC := 0x1ffffffffffffffe#64 }, .data [1#8]),
   ({ at256 .read 0#7 with CNT := 63, BC := 63#64 }, .data [1#8])]

theorem witness_ReadFollowsItsLines : ∀ c ∈ readCases, Memory.wf 64 c.1.BUF = true ∧
    (SrcPort.source ((onto .e256 c.1 (.script [c.2])).port .e256)).answer (64 - c.1.CNT.val) = some (c.2, .script []) := by
  decide +kernel

/-- Each of them ends as its line says: phase, CAUSE, CNT (95 section 2.9). -/
theorem test_readCases : (readCases.map fun c => (after .read .e256 c.1 (.script [c.2])).map fun e =>
      (e.SEQ.PHASE, e.CAUSE, e.CNT.val)) =
    [some (11#4, 1#2, 0), some (11#4, 2#2, 63), some (11#4, 2#2, 0), some (3#4, 0#2, 0), some (11#4, 3#2, 63),
     some (2#4, 0#2, 63), some (3#4, 0#2, 64)] := by decide +kernel

theorem witness_ReadWaitsForItsSource :
    (waitingState.port waitingState.cur).source.answer (64 - (waitingState.engine .e256).CNT.val) = none := by decide

theorem witness_HostSeesAnErrorAndNoDigest : ∃ t, exec .read (onto .e256 (at256 .read 0#7) (.script [.err 7#8])) = .next t ∧
    (t.engine .e256).inPhase .error = true := ⟨_, rfl, by decide⟩

/-- Instances in PAD at the boundaries of `CNT`: full, one byte left, the last with room for the length, the first
without, and after the marker. -/
def padCases : List (Engine .e256) :=
  [{ at256 .pad 0#7 with CNT := 64, BC := 64#64 }, { at256 .pad 0#7 with CNT := 63, BC := 0x1fffffffffffffff#64 },
   { at256 .pad 0#7 with CNT := 55, BC := 55#64 }, { at256 .pad 0#7 with CNT := 56, BC := 56#64 },
   { at256 .pad 0#7 with CNT := 0, BC := 56#64, PADDED := true }]

theorem witness_PadAppendsMarkerAndLength : ∀ e ∈ padCases, Memory.wf 64 e.BUF = true := by decide +kernel

/-- PADDED, TERMINAL and the byte at offset 63 after each (95 section 2.2). -/
theorem test_padCases : (padCases.map fun e => (after .pad .e256 e (.script [])).map fun e' =>
      (e'.PADDED, e'.TERMINAL, Memory.read e'.BUF 63)) =
    [some (false, false, 0x00#8), some (true, false, 0x80#8), some (true, true, 0xb8#8), some (true, false, 0x00#8),
     some (true, true, 0xc0#8)] := by decide +kernel

theorem witness_ExpandMeetsTheRecurrence : (15 < 16 ∧ 15 < Variant.N .e256) ∧ (16 ≤ 16 ∧ 16 < Variant.N .e256) ∧
    16 ≤ 79 ∧ 79 < Variant.N .e512 := by decide

theorem witness_RoundUpdatesAllRegisters : (63#7).toNat < (onto .e256 (at256 .round 63#7) (.script [])).cur.N ∧
    (79#7).toNat < (onto .e512 (at512 .round 79#7) (.script [])).cur.N ∧ (79#7).toNat + 1 = Variant.N .e512 ∧
    (62#7).toNat + 1 ≠ Variant.N .e256 := by decide

theorem witness_RoundBeyondTheScheduleStops : State.reset.cur.N ≤ (64#7).toNat ∧
    (onto .e512 (at512 .round 80#7) (.script [])).cur.N ≤ (80#7).toNat := by decide

theorem witness_FoldAddsIntoTheHashState : ({ at256 .fold 64#7 with TERMINAL := true }).TERMINAL = true ∧
    (at256 .fold 64#7).TERMINAL = false := by decide

theorem witness_RoundLoopComputesTheRounds : Variant.N .e256 ≤ Variant.N .e256 ∧
    (onto .e256 (at256 .load 0#7) (.script [])).cmd = none ∧
    ((onto .e256 (at256 .load 0#7) (.script [])).engine .e256).inPhase .load = true := by decide

theorem witness_EmitSerialisesBigEndian : 7 < 8 ∧ 7 < Variant.WB .e512 ∧ Variant.WB .e512 * 7 + 7 < Variant.DB .e512 := by
  decide

/-- 95 section 2.1: the largest amount. -/
theorem witness_RotrMovesEveryBit : 31 < 32 ∧ rotr 0x80000000#32 ⟨31, by decide, by decide⟩ = 0x00000001#32 := by decide

/-- 95 section 2.1: the largest amount. -/
theorem witness_ShrDividesByAPowerOfTwo : shr 0x80000000#32 ⟨31, by decide, by decide⟩ = 0x00000001#32 := by decide

theorem witness_ChooseSelectsBits : 31 < 32 ∧ choose 0xf0f0f0f0#32 0xaaaaaaaa#32 0x55555555#32 = 0xa5a5a5a5#32 := by decide

theorem witness_MajorityTakesTheCommonBit :
    31 < 32 ∧ majority 0xf0f0f0f0#32 0xaaaaaaaa#32 0x55555555#32 = 0xf0f0f0f0#32 := by decide

/-- 95 section 2.10: the last entries. -/
theorem witness_ConstantsFollowTheGeneratingRule : 79 < Variant.N .e512 ∧ (K .e512)[79] = 0x6c44198c4a475817#64 ∧
    (K .e256)[63] = 0xc67178f2#32 ∧ (H0 .e512)[7] = 0x5be0cd19137e2179#64 := by decide +kernel

theorem witness_BigEndianStoreThenLoad : 56 + 8 ≤ Variant.B .e256 ∧ Memory.wf 64 (Engine.reset .e256).BUF = true := by decide

theorem witness_StatusIsAViewOfThePhase : ∀ p ∈ [Phase.idle, .clrbuf, .emit, .done, .error],
    (at256 p 0#7).inPhase p = true := by decide

theorem witness_HostRegisterMap : 3 ≤ (0x03#8).toNat ∧ (0x3f#8).toNat < 0x40 ∧ (0x40#8).toNat = 0x40 + 0 ∧
    (0x5f#8).toNat = 0x40 + 31 ∧ 31 < Variant.DB .e256 ∧ 0x40 + Variant.DB .e256 ≤ (0x60#8).toNat := by decide

/-- E256 busy, and the host about to do one act. -/
def actingState (a : HostAct) : State := { busyState with host := [a] }

theorem witness_HostRegisterMap_act : commandTaken (actingState (.read .e256 0x00#8)) = none ∧
    nextAgent (actingState (.read .e256 0x00#8)) = .host ∧
    (actingState (.read .e256 0x00#8)).host = .read .e256 0x00#8 :: [] := by decide

/-- One of each act; a wait on an instance that is busy is met on the schedule. -/
theorem witness_HostActsReachNoEngineState :
    (∀ a ∈ [HostAct.offer 0x02#8, .withdraw, .read .e512 0x40#8, .waitIdle .e512, .attach .e256 (.cursor abc)],
      commandTaken (actingState a) = none ∧ nextAgent (actingState a) = .host ∧
      (actingState a).host.head? ≠ some .reset) ∧
    commandTaken { actingState (.waitIdle .e256) with schedule := [.host] } = none ∧
    nextAgent { actingState (.waitIdle .e256) with schedule := [.host] } = .host ∧
    (busyState.engine .e256).busy = true ∧ (busyState.engine .e512).busy = false := by decide

/-- E256 busy, and the host about to assert the hardware reset. -/
def resettingState : State := { busyState with host := [.reset] }

theorem witness_HardwareResetAbandonsEverything : commandTaken resettingState = none ∧ nextAgent resettingState = .host ∧
    resettingState.host = .reset :: [] := by decide

theorem witness_StepRunsTheDecodedInstruction : commandTaken busyState = none ∧ nextAgent busyState = .engine .e256 ∧
    decodeSeq ((busyState.engine .e256).SEQ.PHASE ++ (busyState.engine .e256).SEQ.T) = .ok (.round 17#7) ∧
    (Instr.round 17#7).wf = true := by decide

theorem witness_StepRunsTheDecodedInstruction_unreachable :
    commandTaken (State.reset.withFetchWord 16 0x600) = none ∧
    nextAgent (State.reset.withFetchWord 16 0x600) = .engine .e512 ∧
    12 ≤ ((State.reset.withFetchWord 16 0x600).engine .e512).SEQ.PHASE.toNat ∧
    12 ≤ ((State.reset.withFetchWord 16 0x780).engine .e512).SEQ.PHASE.toNat := by decide

/-- Between the marker and the length field: the first and the last byte of the fill. -/
theorem witness_PaddedMessageIsWholeBlocks : abc.length < 4 ∧ 4 < (padMessage .e256 abc).length - Variant.LB .e256 ∧
    abc.length < 55 ∧ 55 < (padMessage .e256 abc).length - Variant.LB .e256 := by decide

theorem witness_StepTakesAnOfferedCommand : (doneState.engine .e256).holds = true ∧
    (doneState.setCmd (some 0x02#8)).cmd = some (cmdWord 1#3 .e256) ∧
    (doneState.setCmd (some 0x04#8)).cmd = some (cmdWord 2#3 .e256) := by decide

theorem witness_WordNotTakenHasNoEffect_undefined : (busyState.setCmd (some 0x06#8)).cmd = some 0x06#8 ∧
    decodeCmd 0x06#8 = .error (.undefinedCommand 0x06#8) ∧
    nextAgent (busyState.setCmd (some 0x06#8)) = .engine .e256 := by decide

theorem witness_WordNotTakenHasNoEffect_busy : (busyState.setCmd (some 0x02#8)).cmd = some 0x02#8 ∧
    decodeCmd 0x02#8 = .ok (.start .e256) ∧ commandTarget (.start .e256) = some .e256 ∧
    ((busyState.setCmd (some 0x02#8)).engine .e256).holds = false ∧
    nextAgent (busyState.setCmd (some 0x02#8)) = .engine .e256 := by decide

theorem witness_PhaseChangesFollowTheTransitionTable : (∃ t, step busyState = .next t) ∧
    (busyState.engine .e256).inPhase .round = true ∧ (∃ t, step (doneState.setCmd (some 0x04#8)) = .next t) ∧
    ((doneState.setCmd (some 0x04#8)).engine .e256).inPhase .done = true :=
  ⟨⟨_, rfl⟩, by decide, ⟨_, rfl⟩, by decide⟩

theorem witness_ElementsChangeOnlyByTheirWriters : commandTaken busyState = none ∧ nextAgent busyState = .engine .e256 ∧
    (busyState.engine .e256).inPhase .round = true ∧ (∃ t, step busyState = .next t) ∧ Phase.round ∉ writers .H :=
  ⟨by decide, by decide, by decide, ⟨_, rfl⟩, by decide⟩

theorem witness_CounterAndFlagsNeverGoBack : commandTaken plainReadState = none ∧ nextAgent plainReadState = .engine .e256 ∧
    ∃ t, step plainReadState = .next t := ⟨by decide, by decide, ⟨_, rfl⟩⟩

theorem witness_OnlyReadAsksTheSource : (readingState.engine .e256).Inv ∧ commandTaken readingState = none ∧
    nextAgent readingState = .engine .e256 ∧ (readingState.engine .e256).inPhase .read = true ∧
    ∃ t, step readingState = .next t := ⟨test_readingEngine_inv, rfl, rfl, rfl, ⟨_, rfl⟩⟩

theorem witness_InstancesDoNotInterfere : commandTaken plainReadState = none ∧ nextAgent plainReadState = .engine .e256 ∧
    (∃ t, step plainReadState = .next t) ∧ Variant.e512 ≠ .e256 := ⟨by decide, by decide, ⟨_, rfl⟩, by decide⟩

theorem witness_InterleavingDoesNotMatter : plainReadState.cmd = none ∧ ∃ t, Host.Core.run Sys2Proof.core 2
    ({ plainReadState with schedule := [.engine .e256, .engine .e512] } : Sys2Proof.Machine.State) = .next t :=
  ⟨by decide, ⟨_, rfl⟩⟩

theorem witness_EveryStepKeepsTheInvariant : idleState.Inv ∧ ∃ t, step idleState = .next t := ⟨test_idleState_inv, ⟨_, rfl⟩⟩

theorem witness_InvariantStatesNeverStop : idleState.Inv := test_idleState_inv

theorem witness_StreamSourceMeetsTheContract : (Source.stream abc [1] [(0, 7#8)] 0).HoldsStream abc ∧
    (∀ r ∈ [64, 64, 63], 1 ≤ r) ∧ 1 ≤ 62 := by
  refine ⟨⟨rfl, ?_⟩, ?_, ?_⟩ <;> decide

/-- E512 idle, its source holding "abc" and giving one byte, then whatever is asked. -/
def chunkedState (errs : List (Nat × BitVec 8)) : State := onto .e512 (Engine.reset .e512) (.stream abc [1] errs 0)

theorem witness_RunEndsInDoneWithSha2 : ((chunkedState []).engine .e512).holds = true ∧
    ((chunkedState []).port .e512).source = .stream abc [1] [] 0 ∧ (∀ c ∈ [1], 1 ≤ c) ∧
    (∀ i, 0 ≤ i → ([] : List (Nat × BitVec 8)).lookup i = none) ∧ abc.length < 2 ^ (Variant.BCW .e512 - 3) :=
  ⟨by decide, rfl, by decide, fun _ _ => rfl, by decide⟩

theorem witness_RunEndsRightOrInError : ((chunkedState [(1, 7#8)]).engine .e512).holds = true ∧
    ((chunkedState [(1, 7#8)]).port .e512).source = .stream abc [1] [(1, 7#8)] 0 ∧ (∀ c ∈ [1], 1 ≤ c) ∧
    abc.length < 2 ^ (Variant.BCW .e512 - 3) := ⟨by decide, rfl, by decide, by decide⟩

end Sys2Proof.Tests
end

