-- ==== Sys2Proof/Proofs/Status.lean ====
section
/-! PROOF. STATUS is a view of `SEQ.PHASE` (spec/10_state.md R35): the byte each phase shows, then the obligation. -/

namespace Sys2Proof

/-- The byte STATUS reads in a phase (R35): DONE and ERROR have a bit of their own, IDLE reads zero, and every other phase
is busy. -/
def Phase.statusByte : Phase → BitVec 8
  | .idle => 0x00#8
  | .done => 0x02#8
  | .error => 0x04#8
  | _ => 0x01#8

end Sys2Proof

namespace Sys2Proof.Machine

/-- STATUS depends on the phase alone (R35). -/
theorem Engine.status_of_inPhase {v : Variant} {e : Engine v} {p : Phase} (h : e.inPhase p = true) :
    e.status = p.statusByte := by
  have hp : e.SEQ.PHASE = p.code := Engine.inPhase_iff.1 h
  have hbusy : e.busy = !e.holds := by
    rw [Bool.eq_iff_iff, Engine.busy_iff_not_holds (hp ▸ Phase.code_le p), Bool.not_eq_true']
  simp only [Engine.status, hbusy, Engine.holds, Engine.inPhase_of_code hp]
  cases p <;> rfl

/-- Settles O29: STATUS is the byte of the phase, and each of the twelve bytes has the bits of R35. -/
theorem statusIsAViewOfThePhase : Obligations.StatusIsAViewOfThePhase := by
  intro v e p h
  rw [Engine.status_of_inPhase h]
  cases p <;> decide

end Sys2Proof.Machine
end

