-- ==== Sys2Proof/Proofs/Memory.lean ====
section
/-! PROOF. Big-endian stores and loads of the Block Buffer (spec/20_memory.md R50): the bytes of a value by index, then
what MemWrite stores, reads back and leaves alone, then the obligation. -/

namespace Sys2Proof.Machine

/-- The store's side of R50 for one byte: byte `j` counts from the most significant end. -/
theorem getElem_beBytes {n x j : Nat} (hj : j < (beBytes n x).length) :
    (beBytes n x)[j] = BitVec.ofNat 8 (x / 2 ^ (8 * (n - 1 - j))) := by
  induction n generalizing j with
  | zero => exact absurd hj (Nat.not_lt_zero j)
  | succ n ih =>
    cases j with
    | zero => rfl
    | succ j =>
      have hindex : n + 1 - 1 - (j + 1) = n - 1 - j := by omega
      rw [hindex]
      exact ih (Nat.lt_of_succ_lt_succ hj)

/-- MemWrite writes no element but the Block Buffer. -/
theorem Engine.memWrite_sameExcept {v : Variant} (e : Engine v) (a n x : Nat) (h : a + n ≤ v.B) :
    e.SameExcept [.BUF] (e.memWrite a n x h) := by
  intro f hf
  cases f
  case BUF => exact absurd (List.mem_singleton_self _) hf
  all_goals rfl

section
variable {v : Variant} {e : Engine v} {a n : Nat} (x : Nat) (h : a + n ≤ v.B) (hm : Memory.wf v.B e.BUF = true)
include hm

theorem Engine.memWrite_wf : Memory.wf v.B (e.memWrite a n x h).BUF = true :=
  Memory.wf_writeBytes hm (by rwa [beBytes_length])

theorem Engine.memRead_memWrite : (e.memWrite a n x h).memRead a n h = x % 2 ^ (8 * n) := by
  have hread := Memory.readBE_writeBytes (bs := beBytes n x) hm (by rwa [beBytes_length])
  rw [beBytes_length, beValue_beBytes] at hread
  exact hread

theorem Engine.read_memWrite_inside {j : Nat} (hj : j < n) :
    Memory.read (e.memWrite a n x h).BUF (a + j) = BitVec.ofNat 8 (x / 2 ^ (8 * (n - 1 - j))) := by
  have hin : a ≤ a + j ∧ a + j < a + (beBytes n x).length := by rw [beBytes_length]; omega
  rw [Engine.memWrite_BUF, Memory.read_writeBytes hm (by rwa [beBytes_length]), dif_pos hin, getElem_beBytes,
    Nat.add_sub_cancel_left]

theorem Engine.read_memWrite_outside {b : Nat} (hb : b < a ∨ a + n ≤ b) :
    Memory.read (e.memWrite a n x h).BUF b = Memory.read e.BUF b :=
  Memory.read_writeBytes_outside hm (by rwa [beBytes_length]) (by rwa [beBytes_length])

end

/-- Settles O28: the clauses are the laws of MemWrite above. -/
theorem bigEndianStoreThenLoad : Obligations.BigEndianStoreThenLoad := by
  intro v e a n x h hm
  refine ⟨Engine.memRead_memWrite x h hm, fun j hj => ?_, fun b hb => Engine.read_memWrite_outside x h hm hb,
    Engine.memWrite_wf x h hm, e.memWrite_sameExcept a n x h⟩
  rw [Engine.read_memWrite_inside x h hm hj, BitVec.toNat_ofNat]

end Sys2Proof.Machine
end

