-- ==== Sys2Proof/Proofs/CommandWords.lean ====
section
/-! PROOF. The command words (spec/30_encoding.md R81, R87 a): a word is defined only if its fields are those of START or
CLEAR, then the obligation. -/

namespace Sys2Proof

/-- The `v` field of a command word names an instance, whose bit it is (R81). -/
theorem Variant.bit_ofBit (b : Bool) : (Variant.ofBit b).bit = BitVec.ofBool b := by
  cases b <;> rfl

/-- Format CMD has no bits beyond its three fields (R81): a word with `zero` clear is put together from `op` and `v`. -/
theorem eq_cmdWord_of_zero {w : BitVec 8} (hzero : w.extractLsb' 4 4 = 0#4) :
    w = cmdWord (w.extractLsb' 1 3) (Variant.ofBit (w.getLsbD 0)) := by
  have hv : w.extractLsb' 0 1 = BitVec.ofBool (w.getLsbD 0) := by
    rw [← BitVec.setWidth_eq_extractLsb' (by decide), BitVec.setWidth_one]
  have hop : w.extractLsb' 4 4 ++ w.extractLsb' 1 3 = w.extractLsb' 1 7 :=
    BitVec.extractLsb'_append_extractLsb'_eq_extractLsb' rfl
  rw [cmdWord, Variant.bit_ofBit, ← hzero, ← hv, hop]
  exact (BitVec.extractLsb'_append_extractLsb' (w := 7) (len := 1)).symm

/-- R87 a: a word that is neither a START word nor a CLEAR word is undefined. -/
theorem decodeCmd_undefined {w : BitVec 8} (hstart : ∀ v, w ≠ cmdWord 1#3 v) (hclear : ∀ v, w ≠ cmdWord 2#3 v) :
    decodeCmd w = .error (.undefinedCommand w) := by
  rw [decodeCmd]
  by_cases hzero : w.extractLsb' 4 4 = 0#4
  · have hw := eq_cmdWord_of_zero hzero
    have hop1 : w.extractLsb' 1 3 ≠ 1#3 := fun hop => hstart _ (hop ▸ hw)
    have hop2 : w.extractLsb' 1 3 ≠ 2#3 := fun hop => hclear _ (hop ▸ hw)
    simp only [if_neg hop1, if_neg hop2, ite_self]
  · exact if_neg hzero

/-- Settles O2: the four words are those of START and CLEAR for the two instances, which decode by their round trips;
every other word is undefined. -/
theorem fourCommandWordsAreDefined : Obligations.FourCommandWordsAreDefined := by
  refine ⟨Laws.RoundTrip.start .e256 rfl, Laws.RoundTrip.start .e512 rfl, Laws.RoundTrip.clear .e256 rfl,
    Laws.RoundTrip.clear .e512 rfl, fun w h2 h3 h4 h5 => decodeCmd_undefined (fun v => ?_) (fun v => ?_)⟩
  · cases v
    · exact h2
    · exact h3
  · cases v
    · exact h4
    · exact h5

end Sys2Proof
end

