-- ==== Sys2Proof/Proofs/WordFns.lean ====
section
/-! PROOF. Word functions (spec/40_word_functions.md): the rotation and the shift, then the two boolean functions by their
bits, then the sigma functions over Lean's own rotation, each with its obligation. -/

namespace Sys2Proof.Machine

/-- The formula of R102 is Lean's rotation, for an amount below the width. -/
theorem rotr_eq_rotateRight {w : Nat} (x : BitVec w) (a : Amount w) : rotr x a = x.rotateRight a.n :=
  (BitVec.rotateRight_eq_rotateRightAux_of_lt a.lt).symm

theorem shr_eq_ushiftRight {w : Nat} (x : BitVec w) (a : Amount w) : shr x a = x >>> a.n := rfl

/-- R102: the bits at `n` and above come down by `n`, and the `n` bits below it enter at the top. -/
theorem getLsbD_rotr {w : Nat} (x : BitVec w) (a : Amount w) {i : Nat} (hi : i < w) :
    (rotr x a).getLsbD i = x.getLsbD ((i + a.n) % w) := by
  have hlt := a.lt
  by_cases hlow : i < w - a.n
  · have hsource : (i + a.n) % w = a.n + i := by
      rw [Nat.add_comm, Nat.mod_eq_of_lt (by omega)]
    rw [hsource]
    exact BitVec.getLsbD_rotateRightAux_of_lt hlow
  · have hsource : (i + a.n) % w = i - (w - a.n) := by
      rw [Nat.mod_eq_sub_mod (by omega), Nat.mod_eq_of_lt (by omega)]
      omega
    have hhigh : i ≥ w - a.n := Nat.le_of_not_lt hlow
    have hbit : (rotr x a).getLsbD i = (decide (i < w) && x.getLsbD (i - (w - a.n))) :=
      BitVec.getLsbD_rotateRightAux_of_ge hhigh
    rw [hsource, hbit, decide_eq_true hi, Bool.true_and]

/-- Settles O22: the bit law of `rotr`. -/
theorem rotrMovesEveryBit : Obligations.RotrMovesEveryBit :=
  fun _ x a _ hi => getLsbD_rotr x a hi

/-- Settles O23: a shift of the number is a division by the power of two. -/
theorem shrDividesByAPowerOfTwo : Obligations.ShrDividesByAPowerOfTwo := by
  intro w x a
  rw [shr_eq_ushiftRight, BitVec.toNat_ushiftRight, Nat.shiftRight_eq_div_pow]

section
variable {w : Nat} (x y z : BitVec w)

/-- R104: the selecting bit leaves one of the two products, the other is zero. -/
theorem getLsbD_choose {i : Nat} (hi : i < w) :
    (choose x y z).getLsbD i = if x.getLsbD i then y.getLsbD i else z.getLsbD i := by
  simp only [choose, BitVec.getLsbD_xor, BitVec.getLsbD_and, BitVec.getLsbD_not, hi, decide_true, Bool.true_and]
  cases x.getLsbD i <;> simp

theorem choose_eq_or : choose x y z = (x &&& y) ||| (~~~x &&& z) := by
  refine BitVec.eq_of_getLsbD_eq fun i hi => ?_
  rw [getLsbD_choose x y z hi]
  simp only [BitVec.getLsbD_or, BitVec.getLsbD_and, BitVec.getLsbD_not, hi, decide_true, Bool.true_and]
  cases x.getLsbD i <;> simp

theorem choose_eq_xor_and_xor : choose x y z = z ^^^ (x &&& (y ^^^ z)) := by
  refine BitVec.eq_of_getLsbD_eq fun i hi => ?_
  rw [getLsbD_choose x y z hi]
  simp only [BitVec.getLsbD_xor, BitVec.getLsbD_and]
  cases x.getLsbD i
  · simp
  · simp [Bool.xor_left_comm]

/-- R105: the three products have odd parity just when two or three of the bits are set. -/
theorem getLsbD_majority (i : Nat) : (majority x y z).getLsbD i =
    decide (2 ≤ (x.getLsbD i).toNat + (y.getLsbD i).toNat + (z.getLsbD i).toNat) := by
  simp only [majority, BitVec.getLsbD_xor, BitVec.getLsbD_and]
  cases x.getLsbD i <;> cases y.getLsbD i <;> cases z.getLsbD i <;> rfl

theorem majority_eq_or : majority x y z = (x &&& y) ||| (x &&& z) ||| (y &&& z) := by
  refine BitVec.eq_of_getLsbD_eq fun i _ => ?_
  rw [getLsbD_majority]
  simp only [BitVec.getLsbD_or, BitVec.getLsbD_and]
  cases x.getLsbD i <;> cases y.getLsbD i <;> cases z.getLsbD i <;> rfl

/-- The count of set bits does not depend on the order of the first two words. -/
theorem majority_comm : majority x y z = majority y x z := by
  refine BitVec.eq_of_getLsbD_eq fun i _ => ?_
  rw [getLsbD_majority, getLsbD_majority, Nat.add_comm (x.getLsbD i).toNat]

/-- The count of set bits does not depend on the order of the last two words. -/
theorem majority_right_comm : majority x y z = majority x z y := by
  refine BitVec.eq_of_getLsbD_eq fun i _ => ?_
  rw [getLsbD_majority, getLsbD_majority, Nat.add_right_comm]

end

/-- Settles O24: the bit law of choose and its two equal forms. -/
theorem chooseSelectsBits : Obligations.ChooseSelectsBits :=
  fun _ x y z => ⟨fun _ hi => getLsbD_choose x y z hi, choose_eq_or x y z, choose_eq_xor_and_xor x y z⟩

/-- Settles O25: the bit law of majority, its equal form and the two exchanges. -/
theorem majorityTakesTheCommonBit : Obligations.MajorityTakesTheCommonBit :=
  fun _ x y z => ⟨fun i _ => getLsbD_majority x y z i, majority_eq_or x y z, majority_comm x y z,
    majority_right_comm x y z⟩

/-- R106, R107 over Lean's rotation. -/
theorem sigmaRotRotRot_eq {w : Nat} (a : SigmaAmounts w) (x : BitVec w) :
    sigmaRotRotRot a x = x.rotateRight a.r1.n ^^^ x.rotateRight a.r2.n ^^^ x.rotateRight a.r3.n := by
  simp only [sigmaRotRotRot, rotr_eq_rotateRight]

/-- R108, R109 over Lean's rotation and shift. -/
theorem sigmaRotRotShr_eq {w : Nat} (a : SigmaAmounts w) (x : BitVec w) :
    sigmaRotRotShr a x = x.rotateRight a.r1.n ^^^ x.rotateRight a.r2.n ^^^ (x >>> a.r3.n) := by
  simp only [sigmaRotRotShr, rotr_eq_rotateRight, shr_eq_ushiftRight]

/-- Settles O26: the two shapes at the amounts of R125. -/
theorem sigmaFunctionsHaveTheirAmounts : Obligations.SigmaFunctionsHaveTheirAmounts :=
  ⟨fun x => ⟨sigmaRotRotRot_eq (rotUpper0 .e256) x, sigmaRotRotRot_eq (rotUpper1 .e256) x,
      sigmaRotRotShr_eq (rotLower0 .e256) x, sigmaRotRotShr_eq (rotLower1 .e256) x⟩,
    fun x => ⟨sigmaRotRotRot_eq (rotUpper0 .e512) x, sigmaRotRotRot_eq (rotUpper1 .e512) x,
      sigmaRotRotShr_eq (rotLower0 .e512) x, sigmaRotRotShr_eq (rotLower1 .e512) x⟩⟩

end Sys2Proof.Machine
end

