-- ==== Sys2Proof/Proofs/Constants.lean ====
section
/-! PROOF. Constants (spec/41_constants.md R120): the first eighty primes, then each constant as the fraction of a root whose
integer part is small, then the obligation. -/

namespace Sys2Proof.Machine

/-- The primes in order, as many as the longer table of `K` has entries (R120). -/
def firstPrimes : Vector Nat 80 :=
  #v[2, 3, 5, 7, 11, 13, 17, 19, 23, 29, 31, 37, 41, 43, 47, 53, 59, 61, 67, 71,
    73, 79, 83, 89, 97, 101, 103, 107, 109, 113, 127, 131, 137, 139, 149, 151, 157, 163, 167, 173,
    179, 181, 191, 193, 197, 199, 211, 223, 227, 229, 233, 239, 241, 251, 257, 263, 269, 271, 277, 281,
    283, 293, 307, 311, 313, 317, 331, 337, 347, 349, 353, 359, 367, 373, 379, 383, 389, 397, 401, 409]

/-- The numbers below `n` with a property are the first ones with it, in order. -/
theorem filter_range_eq_map_nth (p : Nat → Prop) [DecidablePred p] (n : Nat) :
    (List.range n).filter p = (List.range (Nat.count p n)).map (Nat.nth p) := by
  induction n with
  | zero => simp
  | succ n ih =>
    rw [List.range_succ, List.filter_append, ih, Nat.count_succ]
    by_cases hn : p n
    · simp [hn, List.range_succ, Nat.nth_count]
    · simp [hn]

/-- Trial division up to the square root, with the bound first: in this form the kernel evaluates it quickly. -/
theorem prime_iff_no_divisor_le_sqrt {n : Nat} :
    n.Prime ↔ 2 ≤ n ∧ ∀ m < n.sqrt + 1, 2 ≤ m → ¬ m ∣ n := by
  rw [Nat.prime_def_le_sqrt]
  refine and_congr_right fun _ => forall_congr' fun m => ?_
  rw [Nat.lt_succ_iff]
  exact forall_comm

theorem filter_prime_range_eq_firstPrimes : (List.range 410).filter Nat.Prime = firstPrimes.toList := by
  simp only [prime_iff_no_divisor_le_sqrt]
  decide +kernel

theorem nth_prime_eq_firstPrimes {t : Nat} (h : t < 80) : Nat.nth Nat.Prime t = firstPrimes[t] := by
  have hmap := (filter_range_eq_map_nth Nat.Prime 410).symm.trans filter_prime_range_eq_firstPrimes
  have hcount : Nat.count Nat.Prime 410 = 80 := by simpa using congrArg List.length hmap
  simpa [hcount, h] using congrArg (·[t]?) hmap

/-- `k` is the fraction, in `w` bits, of the `e`-th root of `p`: an integer part `c` completes it to the integer root of
`p * 2^(e*w)`. The primes here are at most 409, so for `e = 3` no `c` above 7 is needed, and for `e = 2` (primes up to 19)
none above 4. -/
abbrev IsRootFraction (e w p k : Nat) : Prop :=
  ∃ c < 8, (c * 2 ^ w + k) ^ e ≤ p * 2 ^ (e * w) ∧ p * 2 ^ (e * w) < (c * 2 ^ w + k + 1) ^ e

/-- A word that is a root's fraction is the integer root modulo `2^w` (the form of R120). -/
theorem IsRootFraction.exists_root {e w p : Nat} {x : BitVec w} (h : IsRootFraction e w p x.toNat) :
    ∃ q : Nat, q ^ e ≤ p * 2 ^ (e * w) ∧ p * 2 ^ (e * w) < (q + 1) ^ e ∧ x.toNat = q % 2 ^ w := by
  obtain ⟨c, _, hle, hlt⟩ := h
  exact ⟨c * 2 ^ w + x.toNat, hle, hlt, by rw [Nat.mul_add_mod_self_right, Nat.mod_eq_of_lt x.isLt]⟩

/-- R121, R122 against R120, entry by entry. -/
theorem K_isRootFraction (v : Variant) :
    ∀ t (h : t < v.N), IsRootFraction 3 v.W (firstPrimes[t]'(h.trans_le v.N_le)) ((K v)[t]).toNat := by
  cases v <;> decide +kernel

/-- R123, R124 against R120, entry by entry. -/
theorem H0_isRootFraction (v : Variant) :
    ∀ k (h : k < 8), IsRootFraction 2 v.W firstPrimes[k] ((H0 v)[k]).toNat := by
  cases v <;> decide +kernel

theorem K_e256_eq_upper_half : ∀ t (h : t < 64),
    ((K .e256)[t]).toNat = ((K .e512)[t]'(by show t < 80; omega)).toNat / 2 ^ 32 := by
  decide +kernel

theorem H0_e256_eq_upper_half : ∀ k (h : k < 8), ((H0 .e256)[k]).toNat = ((H0 .e512)[k]).toNat / 2 ^ 32 := by
  decide +kernel

/-- Settles O27: each constant is the fraction of the root of its prime, and the shorter tables are upper halves. -/
theorem constantsFollowTheGeneratingRule : Obligations.ConstantsFollowTheGeneratingRule := by
  refine ⟨fun v t h => ?_, fun v k h => ?_, K_e256_eq_upper_half, H0_e256_eq_upper_half⟩
  · rw [nth_prime_eq_firstPrimes (h.trans_le v.N_le)]
    exact (K_isRootFraction v t h).exists_root
  · rw [nth_prime_eq_firstPrimes (h.trans (by decide))]
    exact (H0_isRootFraction v k h).exists_root

end Sys2Proof.Machine
end

