-- ==== Sys2Proof/Proofs/BlockAssembler.lean ====
section
/-! PROOF. The Block Assembler (spec/42_block_assembler.md R134, R135, R138): what each of its steps leaves alone, the bytes
that READ and PAD write, then the obligations of READ, PAD and CLRBUF. -/

namespace Sys2Proof.Machine

/-! ### Frames -/

/-- A frame, element by element. -/
theorem Engine.sameExcept_iff {v : Variant} {fs : List Field} {e e' : Engine v} :
    e.SameExcept fs e' ↔
      (.SEQ ∉ fs → e'.SEQ = e.SEQ) ∧ (.R ∉ fs → e'.R = e.R) ∧ (.H ∉ fs → e'.H = e.H) ∧ (.M ∉ fs → e'.M = e.M) ∧
      (.WS ∉ fs → e'.WS = e.WS) ∧ (.DIGEST ∉ fs → e'.DIGEST = e.DIGEST) ∧ (.BUF ∉ fs → e'.BUF = e.BUF) ∧
      (.CNT ∉ fs → e'.CNT = e.CNT) ∧ (.BC ∉ fs → e'.BC = e.BC) ∧ (.PADDED ∉ fs → e'.PADDED = e.PADDED) ∧
      (.TERMINAL ∉ fs → e'.TERMINAL = e.TERMINAL) ∧ (.CAUSE ∉ fs → e'.CAUSE = e.CAUSE) ∧
      (.ERRKIND ∉ fs → e'.ERRKIND = e.ERRKIND) := by
  constructor
  · intro h
    exact ⟨h .SEQ, h .R, h .H, h .M, h .WS, h .DIGEST, h .BUF, h .CNT, h .BC, h .PADDED, h .TERMINAL, h .CAUSE, h .ERRKIND⟩
  · rintro ⟨hSEQ, hR, hH, hM, hWS, hDIGEST, hBUF, hCNT, hBC, hPADDED, hTERMINAL, hCAUSE, hERRKIND⟩ f
    cases f <;> assumption

section
variable {v : Variant} (e : Engine v)

theorem Engine.clrbufStep_sameExcept : e.SameExcept [.BUF, .CNT, .SEQ] e.clrbufStep :=
  Engine.sameExcept_iff.2 (by simp)

theorem Engine.setPhase_sameExcept (p : Phase) : e.SameExcept [.SEQ] (e.setPhase p) :=
  Engine.sameExcept_iff.2 (by simp)

theorem Engine.raise_sameExcept (x : Cause) : e.SameExcept [.SEQ, .CAUSE, .ERRKIND] (e.raise x) :=
  Engine.sameExcept_iff.2 (by simp)

theorem Engine.takeBytes_sameExcept (d : List Byte) (h : e.CNT.val + d.length ≤ v.B) :
    e.SameExcept [.SEQ, .BUF, .CNT, .BC] (e.takeBytes d h) :=
  Engine.sameExcept_iff.2 (by simp)

theorem Engine.padStep_sameExcept : e.SameExcept [.SEQ, .BUF, .PADDED, .TERMINAL] e.padStep :=
  Engine.sameExcept_iff.2 (by simp)

/-- READ never writes the index, whatever the answer. -/
@[simp] theorem Engine.readAnswer_T (a : SrcAnswer) : (e.readAnswer a).SEQ.T = e.SEQ.T := by
  rcases e.readAnswer_cases a with ⟨_, _, h⟩ | ⟨_, _, _, h⟩ | ⟨_, h⟩ | ⟨_, _, _, _, _, _, h⟩ | ⟨_, _, _, _, _, _, h⟩
  all_goals rw [h]; rfl

end

/-! ### READ -/

/-- Each of several bytes written is read back at its own address. -/
theorem Memory.read_writeBytes_inside {size : Nat} {m : Memory} {a : Nat} {bs : List Byte}
    (hm : Memory.wf size m = true) (h : a + bs.length ≤ size) {j : Nat} (hj : j < bs.length) :
    Memory.read (Memory.writeBytes m a bs) (a + j) = bs[j] := by
  have hin : a ≤ a + j ∧ a + j < a + bs.length := by omega
  simp only [Memory.read_writeBytes hm h, dif_pos hin, Nat.add_sub_cancel_left]

/-- Lines 5 and 6 of R135 let an answer pass that fits in the block and comes before the marker. -/
theorem Engine.not_protocol_error {v : Variant} {e : Engine v} {d : List Byte} (hroom : d.length ≤ v.B - e.CNT.val)
    (hpad : e.PADDED = false) : ¬ (v.B - e.CNT.val < d.length ∨ 0 < d.length ∧ e.PADDED = true) := by
  simp [hroom, hpad]

/-- Settles O10: all but the engine by the frame of a sequencer instruction; in the engine, the case of `readAnswer_cases`
is the line of R135 that applies, and the bytes taken are the laws of a write of several bytes. -/
theorem readFollowsItsLines : Obligations.ReadFollowsItsLines := by
  intro s a src hwf hans
  have hexec := execRead_answer hans
  obtain ⟨hothers, hcmd, hhost, hlog, hschedule, hcur, hfree, -⟩ :=
    execOfPhase_frame (p := .read) (T := (s.engine s.cur).SEQ.T) hexec
  refine ⟨_, hexec, by simp, by simp [Engine.requestSize], fun u hu => (hothers u hu).symm, hcmd, hhost, hlog, hschedule,
    hcur, hfree, ?_⟩
  rw [State.engine_setEngine_self]
  refine ⟨Engine.readAnswer_T _ a, ?_⟩
  generalize s.engine s.cur = e at hwf ⊢
  rcases e.readAnswer_cases a with ⟨kind, rfl, hstep⟩ | ⟨d, rfl, hbad, hstep⟩ | ⟨rfl, hstep⟩ |
    ⟨d, rfl, hpos, hroom, hpad, hlong, hstep⟩ | ⟨d, hfit, rfl, hpos, hpad, hshort, hstep⟩ <;> rw [hstep]
  · exact ⟨rfl, rfl, rfl, e.raise_sameExcept _⟩
  · simp only [Engine.requestSize] at hbad
    simp only [if_pos hbad]
    exact ⟨rfl, rfl, rfl, e.raise_sameExcept _⟩
  · simp [e.setPhase_sameExcept]
  · simp only [if_neg (Engine.not_protocol_error hroom hpad), if_neg hpos.ne', if_pos hlong]
    exact ⟨rfl, rfl, rfl, e.raise_sameExcept _⟩
  · have hroom : d.length ≤ s.cur.B - e.CNT.val := Nat.le_sub_of_add_le' hfit
    simp only [if_neg (Engine.not_protocol_error hroom hpad), if_neg hpos.ne', if_neg (Nat.not_le.2 hshort)]
    exact ⟨fun j hj => Memory.read_writeBytes_inside hwf hfit hj,
      fun b hb => Memory.read_writeBytes_outside hwf hfit hb, rfl, counter_add hshort,
      fun hfull => by simp [hfull], fun hnot => by simp [hnot], e.takeBytes_sameExcept d hfit⟩

/-! ### PAD -/

section
variable {v : Variant} {e : Engine v} (hm : Memory.wf v.B e.BUF = true)
include hm

/-- The marker is the one byte that R138 line 3 writes. -/
theorem Engine.read_markedBuf (b : Nat) : Memory.read e.markedBuf b =
    if b = e.CNT.val ∧ e.CNT.val < v.B ∧ e.PADDED = false then 0x80#8 else Memory.read e.BUF b := by
  unfold Engine.markedBuf
  by_cases hmark : e.CNT.val < v.B ∧ e.PADDED = false
  · rw [if_pos hmark, Memory.read_write_wf hm]
    simp only [hmark, and_true]
  · rw [if_neg hmark, if_neg fun h => hmark h.2]

/-- Outside the length field, where it is written, BUF after PAD is BUF with the marker. -/
theorem Engine.read_padStep_outside_lengthField {b : Nat}
    (hb : ¬ (v.B - v.LB ≤ b ∧ b < v.B ∧ e.CNT.val < v.B - v.LB)) :
    Memory.read e.padStep.BUF b = Memory.read e.markedBuf b := by
  have hfield := lengthField_in_block v
  rw [Engine.padStep_BUF]
  split
  · exact Memory.read_writeBytes_outside (e.markedBuf_wf hm) (by rwa [beBytes_length]) (by rw [beBytes_length]; omega)
  · rfl

end

/-- A full block passes through PAD unchanged (R138 line 1). -/
theorem Engine.padStep_of_full {v : Variant} {e : Engine v} (h : e.CNT.val = v.B) : e.padStep = e.setPhase .parse := by
  rw [Engine.padStep, dif_neg (Nat.not_lt.2 h.ge)]

/-- Settles O13: the flags and the length field are the laws of PAD; the marker and the other bytes are those of BUF with
the marker, outside the length field. -/
theorem padAppendsMarkerAndLength : Obligations.PadAppendsMarkerAndLength := by
  intro s hm
  refine ⟨_, rfl, ?_⟩
  rw [onCur_engine_cur]
  generalize s.engine s.cur = e at hm ⊢
  refine ⟨e.padStep_SEQ, e.padStep_sameExcept, onCur_onlyEngine s _, fun hfull => ?_, fun hroom => ⟨?_, fun hpad => ?_⟩,
    fun hfits => ⟨?_, ?_⟩, fun hlong => ?_, fun b hmarker hlength => ?_⟩
  · rw [Engine.padStep_of_full hfull]
    exact e.setPhase_sameExcept .parse
  · simp [hroom]
  · rw [Engine.read_padStep_outside_lengthField hm (by omega), Engine.read_markedBuf hm, if_pos ⟨rfl, hroom, hpad⟩]
  · simp [hfits]
  · rw [e.padStep_lengthField hm hfits, ← s.cur.BCW_eq]
  · simp [Nat.not_lt.2 hlong]
  · rw [Engine.read_padStep_outside_lengthField hm hlength, Engine.read_markedBuf hm, if_neg hmarker]

/-! ### CLRBUF -/

/-- Settles O9: the cleared buffer lists no byte, so each reads zero. -/
theorem clrbufZeroesTheBlockBuffer : Obligations.ClrbufZeroesTheBlockBuffer := by
  intro s
  refine ⟨_, rfl, ?_⟩
  rw [onCur_engine_cur]
  exact ⟨fun a => Memory.read_nil a.val, rfl, rfl, Engine.clrbufStep_sameExcept _, onCur_onlyEngine s _⟩

end Sys2Proof.Machine
end

