-- ==== Sys2Proof/Proofs/Scheduler.lean ====
section
/-! PROOF. The Block Parser and the Message Scheduler (spec/43_parser_scheduler.md R150, R152): a big-endian load as the sum
of R50 and the recurrence of the schedule, each with its obligation. -/

namespace Sys2Proof.Machine

/-! ### PARSE -/

/-- MemRead is the sum of R50. -/
theorem Memory.readBE_eq_sum (m : Memory) (a n : Nat) :
    Memory.readBE m a n = ∑ j : Fin n, (Memory.read m (a + j.val)).toNat * 2 ^ (8 * (n - 1 - j.val)) := by
  induction n generalizing a with
  | zero => rfl
  | succ n ih =>
    have hrest (j : Fin n) : (Memory.read m (a + 1 + j.val)).toNat * 2 ^ (8 * (n - 1 - j.val)) =
        (Memory.read m (a + j.succ.val)).toNat * 2 ^ (8 * (n + 1 - 1 - j.succ.val)) := by
      rw [Fin.val_succ, Nat.add_sub_cancel, Nat.sub_sub, Nat.add_assoc, Nat.add_comm 1]
    rw [Memory.readBE, ih, Fin.sum_univ_succ, Finset.sum_congr rfl fun j _ => hrest j]
    rfl

section
variable {v : Variant} (e : Engine v)

/-- A word of the Parsed Block is its slice of BUF, whose value fits in `W` bits (R150). -/
theorem Engine.toNat_getElem_parsed {i : Nat} (h : i < 16) :
    (e.parsed[i]).toNat = Memory.readBE e.BUF (v.WB * i) v.WB := by
  have hfits : Memory.readBE e.BUF (v.WB * i) v.WB < 2 ^ v.W := v.W_eq ▸ Memory.readBE_lt _ _ _
  rw [Engine.parsed, Vector.getElem_ofFn, BitVec.toNat_ofNat]
  exact Nat.mod_eq_of_lt hfits

theorem Engine.parseStep_sameExcept : e.SameExcept [.SEQ, .M] e.parseStep :=
  Engine.sameExcept_iff.2 (by simp)

end

/-- Settles O14: a word of the Parsed Block is a MemRead, and MemRead is the sum. -/
theorem parseReadsBigEndianWords : Obligations.ParseReadsBigEndianWords := by
  intro s
  refine ⟨_, rfl, ?_⟩
  rw [onCur_engine_cur]
  refine ⟨fun i h => ?_, rfl, Engine.parseStep_sameExcept _, onCur_onlyEngine s _⟩
  exact (Engine.toNat_getElem_parsed _ h).trans (Memory.readBE_eq_sum _ _ _)

/-! ### EXPAND -/

section
variable {v : Variant} (m : Vector (BitVec v.W) 16)

/-- A further entry leaves the earlier ones as they are. -/
theorem getElem_scheduleTo_succ_of_lt {k i : Nat} (h : i < 16 + k) :
    (scheduleTo v m (k + 1))[i]'(Nat.lt_succ_of_lt h) = (scheduleTo v m k)[i] :=
  Vector.getElem_push_lt h

/-- The further entry is computed from the earlier ones (R152). -/
theorem getElem_scheduleTo_succ_last (k : Nat) : (scheduleTo v m (k + 1))[16 + k] =
    lowerSigma1 v (scheduleTo v m k)[14 + k] + (scheduleTo v m k)[9 + k] +
      lowerSigma0 v (scheduleTo v m k)[1 + k] + (scheduleTo v m k)[k] :=
  Vector.getElem_push_eq

/-- The schedule begins with the Parsed Block. -/
theorem getElem_scheduleTo_of_lt {i : Nat} (h : i < 16) (k : Nat) :
    (scheduleTo v m k)[i]'(Nat.lt_add_right k h) = m[i] := by
  induction k with
  | zero => rfl
  | succ k ih => rw [getElem_scheduleTo_succ_of_lt m (Nat.lt_add_right k h), ih]

/-- Every entry from 16 on meets the recurrence within the schedule itself: it does so when it is computed, and the entries
computed after it change none of those it is made of. -/
theorem scheduleTo_recurrence {k i : Nat} (h16 : 16 ≤ i) (h : i < 16 + k) : (scheduleTo v m k)[i] =
    lowerSigma1 v (scheduleTo v m k)[i - 2] + (scheduleTo v m k)[i - 7] +
      lowerSigma0 v (scheduleTo v m k)[i - 15] + (scheduleTo v m k)[i - 16] := by
  induction k with
  | zero => omega
  | succ k ih =>
    rw [getElem_scheduleTo_succ_of_lt m (i := i - 2) (by omega), getElem_scheduleTo_succ_of_lt m (i := i - 7) (by omega),
      getElem_scheduleTo_succ_of_lt m (i := i - 15) (by omega), getElem_scheduleTo_succ_of_lt m (i := i - 16) (by omega)]
    have hlast : i < 16 + k ∨ i = 16 + k := by omega
    obtain hlt | rfl := hlast
    · rw [getElem_scheduleTo_succ_of_lt m hlt, ih hlt]
    · have h2 : 16 + k - 2 = 14 + k := by omega
      have h7 : 16 + k - 7 = 9 + k := by omega
      have h15 : 16 + k - 15 = 1 + k := by omega
      simp only [getElem_scheduleTo_succ_last, h2, h7, h15, Nat.add_sub_cancel_left]

end

theorem Engine.expandStep_sameExcept {v : Variant} (e : Engine v) : e.SameExcept [.SEQ, .WS] e.expandStep :=
  Engine.sameExcept_iff.2 (by simp)

/-- Settles O15: WS is the whole schedule, which begins with the Parsed Block and meets the recurrence. -/
theorem expandMeetsTheRecurrence : Obligations.ExpandMeetsTheRecurrence := by
  intro s
  refine ⟨_, rfl, ?_⟩
  rw [onCur_engine_cur]
  simp only [Engine.expandStep_WS, expand, Vector.getElem_cast]
  exact ⟨fun i h _ => getElem_scheduleTo_of_lt _ h _, fun i h16 h => scheduleTo_recurrence _ h16 _, rfl,
    Engine.expandStep_sameExcept _, onCur_onlyEngine s _⟩

end Sys2Proof.Machine
end

