-- ==== Sys2Proof/Proofs/RoundFunction.lean ====
section
/-! PROOF. The Compression Round Function (spec/44_round_function.md R160, R161, R163): what LOAD, ROUND and FOLD leave alone,
the registers that a round and a fold write, each with its obligation. -/

namespace Sys2Proof.Machine

/-! ### LOAD -/

theorem Engine.loadStep_sameExcept {v : Variant} (e : Engine v) : e.SameExcept [.SEQ, .R] e.loadStep :=
  Engine.sameExcept_iff.2 (by simp)

/-- Settles O16: the whole Hash State is copied, so every word of it is. -/
theorem loadCopiesTheHashState : Obligations.LoadCopiesTheHashState := by
  intro s
  refine ⟨_, rfl, ?_⟩
  rw [onCur_engine_cur]
  exact ⟨fun _ _ => rfl, Engine.loadStep_SEQ _, Engine.loadStep_sameExcept _, onCur_onlyEngine s _⟩

/-! ### ROUND -/

/-- Writing one instance touches nothing but that instance. -/
theorem setEngine_onlyEngine (s : State) (v : Variant) (e : Engine v) : OnlyEngine v s (s.setEngine v e) :=
  ⟨⟨fun _ hu => State.engine_setEngine_ne s v e hu, fun u => State.port_setEngine s v u e, State.setEngine_cmd s v e,
    State.setEngine_host s v e, State.setEngine_hostLog s v e, State.setEngine_schedule s v e, State.setEngine_cur s v e⟩,
    State.setEngine_freeCount s v e⟩

/-- ROUND with an index below `N` does not stop. -/
theorem execRound_of_lt {s : State} {t : BitVec 7} (h : t.toNat < s.cur.N) :
    execRound t s = .next (s.setEngine s.cur ((s.engine s.cur).roundStep t h)) :=
  dif_pos h

/-- The eight assignments of R161: each word but the last moves to the next index, and `T1` enters at 0 and 4. -/
theorem getElem_roundFn (v : Variant) (r : Vector (BitVec v.W) 8) (k w : BitVec v.W) :
    (roundFn v r k w)[7] = r[6] ∧ (roundFn v r k w)[6] = r[5] ∧ (roundFn v r k w)[5] = r[4] ∧
    (roundFn v r k w)[4] = r[3] + temp1 v r k w ∧ (roundFn v r k w)[3] = r[2] ∧ (roundFn v r k w)[2] = r[1] ∧
    (roundFn v r k w)[1] = r[0] ∧ (roundFn v r k w)[0] = temp1 v r k w + temp2 v r :=
  ⟨rfl, rfl, rfl, rfl, rfl, rfl, rfl, rfl⟩

theorem Engine.roundStep_sameExcept {v : Variant} (e : Engine v) (t : BitVec 7) (h : t.toNat < v.N) :
    e.SameExcept [.SEQ, .R] (e.roundStep t h) :=
  Engine.sameExcept_iff.2 (by simp)

/-- Settles O17: the registers are those of `roundFn`, whose `T1` and `T2` are the two sums of R161; the index does not wrap,
and the branch on it chooses the phase. -/
theorem roundUpdatesAllRegisters : Obligations.RoundUpdatesAllRegisters := by
  intro s k hk
  refine ⟨_, execRound_of_lt hk, ?_⟩
  rw [State.engine_setEngine_self]
  refine ⟨fun r t1 t2 hr ht1 ht2 => ?_, index_succ hk, fun hlast => ?_, fun hmore => ?_,
    Engine.roundStep_sameExcept _ k hk, setEngine_onlyEngine s s.cur _⟩
  · subst hr ht1 ht2
    exact getElem_roundFn s.cur _ _ _
  · rw [Engine.roundStep_SEQ, if_pos hlast]
  · rw [Engine.roundStep_SEQ, if_neg hmore]

/-! ### FOLD -/

/-- Each word of the sum is the sum of the words (R163). -/
theorem getElem_addWords {w : Nat} (h r : Vector (BitVec w) 8) {k : Nat} (hk : k < 8) : (addWords h r)[k] = h[k] + r[k] :=
  Vector.getElem_ofFn hk

theorem Engine.foldStep_sameExcept {v : Variant} (e : Engine v) : e.SameExcept [.SEQ, .H] e.foldStep :=
  Engine.sameExcept_iff.2 (by simp)

/-- Settles O19: the Hash State is the sum word by word, and the branch on TERMINAL chooses the phase. -/
theorem foldAddsIntoTheHashState : Obligations.FoldAddsIntoTheHashState := by
  intro s
  refine ⟨_, rfl, ?_⟩
  rw [onCur_engine_cur]
  refine ⟨fun k hk => getElem_addWords _ _ hk, fun hlast => ?_, fun hmore => ?_, Engine.foldStep_sameExcept _,
    onCur_onlyEngine s _⟩
  · rw [Engine.foldStep_SEQ, if_pos hlast]
  · rw [Engine.foldStep_SEQ, if_neg (Bool.eq_false_iff.1 hmore)]

end Sys2Proof.Machine
end

