-- ==== Sys2Proof/Proofs/DigestDriver.lean ====
section
/-! PROOF. The Digest Accumulator and the hold phases (spec/45_digest_driver.md R175, R176): the bytes of a serialised Hash
State, what a HostRead answers, and why no step reaches an instance that holds; each with its obligation. -/

namespace Sys2Proof.Machine

/-! ### EMIT -/

/-- Byte `j` of word `k` of a serialised Hash State (R175). -/
theorem toNat_getElem_serialize (v : Variant) (H : Vector (BitVec v.W) 8) {k j : Nat} (hk : k < 8) (hj : j < v.WB)
    (h : v.WB * k + j < v.DB) :
    ((serialize v H)[v.WB * k + j]).toNat = (H[k]).toNat / 2 ^ (8 * (v.WB - 1 - j)) % 256 := by
  have hword : (v.WB * k + j) / v.WB = k := by
    rw [Nat.mul_add_div (Nat.zero_lt_of_lt hj), Nat.div_eq_of_lt hj, Nat.add_zero]
  have hbyte : (v.WB * k + j) % v.WB = j := by
    rw [Nat.mul_add_mod, Nat.mod_eq_of_lt hj]
  simp only [serialize, Vector.getElem_ofFn, hword, hbyte, BitVec.toNat_setWidth, BitVec.toNat_ushiftRight,
    Nat.shiftRight_eq_div_pow]

theorem Engine.emitStep_sameExcept {v : Variant} (e : Engine v) : e.SameExcept [.SEQ, .DIGEST] e.emitStep :=
  Engine.sameExcept_iff.2 (by simp)

/-- Settles O21: DIGEST is the serialised Hash State, byte by byte. -/
theorem emitSerialisesBigEndian : Obligations.EmitSerialisesBigEndian := by
  intro s
  refine ⟨_, rfl, ?_⟩
  rw [onCur_engine_cur]
  exact ⟨fun k j hk hj h => toNat_getElem_serialize s.cur _ hk hj h, Engine.emitStep_SEQ _,
    Engine.emitStep_sameExcept _, onCur_onlyEngine s _⟩

/-! ### HostRead -/

section
variable {v : Variant} (e : Engine v)

/-- STATUS answers the byte of the phase (R35, R38). -/
theorem Engine.hostRead_status {p : Phase} (hp : e.inPhase p = true) : e.hostRead 0x00#8 = .value p.statusByte :=
  congrArg HostReadAnswer.value (Engine.status_of_inPhase hp)

theorem Engine.hostRead_cause : e.hostRead 0x01#8 = .value (e.CAUSE.setWidth 8) := rfl

theorem Engine.hostRead_errkind : e.hostRead 0x02#8 = .value e.ERRKIND := rfl

/-- A byte of DIGEST is answered in DONE and refused in every other phase (R38). -/
theorem Engine.hostRead_digest {i : Nat} (h : i < v.DB) : e.hostRead (BitVec.ofNat 8 (0x40 + i)) =
    if e.inPhase .done then .value (e.DIGEST[i]) else .refused .digestNotReady := by
  have hDB : v.DB ≤ 64 := by cases v <;> decide
  have hreg : (BitVec.ofNat 8 (0x40 + i)).toNat = 0x40 + i := by
    rw [BitVec.toNat_ofNat]
    exact Nat.mod_eq_of_lt (by omega)
  have hne (r : BitVec 8) (hr : r.toNat < 0x40) : BitVec.ofNat 8 (0x40 + i) ≠ r := by
    rintro rfl
    omega
  have hin : 0x40 ≤ 0x40 + i ∧ 0x40 + i < 0x40 + v.DB := by omega
  simp only [Engine.hostRead, if_neg (hne 0x00#8 (by decide)), if_neg (hne 0x01#8 (by decide)),
    if_neg (hne 0x02#8 (by decide)), hreg, dif_pos hin, Nat.add_sub_cancel_left]

theorem Engine.hostRead_digest_done (hp : e.inPhase .done = true) {i : Nat} (h : i < v.DB) :
    e.hostRead (BitVec.ofNat 8 (0x40 + i)) = .value (e.DIGEST[i]) := by
  rw [e.hostRead_digest h, if_pos hp]

theorem Engine.hostRead_digest_refused {p : Phase} (hp : e.inPhase p = true) (hne : p ≠ .done) {i : Nat} (h : i < v.DB) :
    e.hostRead (BitVec.ofNat 8 (0x40 + i)) = .refused .digestNotReady := by
  have hdone : e.inPhase .done = false := by
    rw [Engine.inPhase_of_code (Engine.inPhase_iff.1 hp), decide_eq_false hne]
  rw [e.hostRead_digest h, hdone]
  rfl

end

/-- In IDLE no error is recorded (R36, R37). -/
theorem Engine.Inv.no_error_of_idle {v : Variant} {e : Engine v} (hi : e.Inv) (hp : e.inPhase .idle = true) :
    e.CAUSE = 0#2 ∧ e.ERRKIND = 0#8 := by
  have hcause : e.CAUSE = 0#2 := hi.cause_none (by rw [Engine.inPhase_of_code (Engine.inPhase_iff.1 hp)]; rfl)
  exact ⟨hcause, hi.errkind (by rw [hcause]; decide)⟩

/-! ### A step beside an instance that holds -/

/-- A command touches no instance but the one it addresses. -/
theorem exec_command_engine_ne {s t : State} {u v : Variant} {i : Instr} (hi : i = .start u ∨ i = .clear u) (hv : v ≠ u)
    (h : exec i s = .next t) : t.engine v = s.engine v := by
  have hwrite (e : Engine u) : ((s.setEngine u e).drawFree).engine v = s.engine v := by
    rw [State.engine_drawFree, State.engine_setEngine_ne s u e hv]
  obtain rfl | rfl := hi
  · simp only [exec, execStart] at h
    split at h <;> cases h
    · exact hwrite _
    · rfl
  · simp only [exec, execClear] at h
    split at h <;> cases h
    · exact hwrite _
    · rfl

/-- No act of the host but the hardware reset reaches an instance. -/
theorem hostEffect_engine (s : State) {a : HostAct} (ha : a ≠ .reset) (v : Variant) :
    (hostEffect s a).engine v = s.engine v := by
  cases a
  case reset => exact absurd rfl ha
  all_goals simp [hostEffect]

theorem hostTurn_engine {s : State} (h : s.host.head? ≠ some .reset) (v : Variant) :
    (hostTurn s).engine v = s.engine v := by
  obtain hstay | ⟨a, rest, hhost, -, hturn⟩ := hostTurn_cases s
  · rw [hstay]
  · have ha : a ≠ .reset := by
      rintro rfl
      exact h (by rw [hhost]; rfl)
    rw [hturn, State.engine_setHost, hostEffect_engine s ha]

/-- What a hold phase performs changes nothing (R176). -/
theorem execOfPhase_of_holds {s : State} {v : Variant} {p : Phase} (hp : (s.engine v).SEQ.PHASE = p.code)
    (hh : (s.engine v).holds = true) (T : BitVec 7) (r : State) : exec (Instr.ofPhase p T) r = .next r := by
  rw [Engine.holds_iff, hp] at hh
  simp only [Phase.code_inj] at hh
  obtain rfl | rfl | rfl := hh <;> rfl

/-- The move of an instance leaves every instance that holds as it was: a mover that holds does nothing, and another
mover stays within itself. -/
theorem step_engine_of_holds {s t : State} {u v : Variant} (hh : (s.engine v).holds = true) (hc : commandTaken s = none)
    (ha : nextAgent s = .engine u) (h : step s = .next t) : t.engine v = s.engine v := by
  obtain ⟨p, hp, hexec⟩ := step_runs_phase hc ha h
  by_cases hv : v = u
  · subst hv
    cases (execOfPhase_of_holds hp hh _ _).symm.trans hexec
    exact select_engine s v v
  · obtain ⟨hothers, -⟩ := execOfPhase_frame hexec
    exact (hothers v hv).1.trans (select_engine s v u)

/-- An instance that holds is left as it was by every step that neither takes a command for it nor asserts the hardware
reset (R176, R221). -/
theorem step_keeps_held_engine {s t : State} {v : Variant} (hh : (s.engine v).holds = true) (h : step s = .next t)
    (hstart : commandTaken s ≠ some (.start v)) (hclear : commandTaken s ≠ some (.clear v))
    (hreset : nextAgent s = .host → s.host.head? ≠ some .reset) : t.engine v = s.engine v := by
  obtain ⟨i, hi, hexec⟩ | ⟨-, ha, rfl⟩ | ⟨u, i, hc, ha, -, -⟩ := step_cases h
  · obtain ⟨_, u, -, -, -, -, hiu⟩ := commandTaken_spec hi
    have hv : v ≠ u := by
      rintro rfl
      obtain rfl | rfl := hiu
      · exact hstart hi
      · exact hclear hi
    rw [exec_command_engine_ne hiu hv hexec, State.engine_setCmd]
  · exact (hostTurn_engine (s := advance s) (hreset ha) v).trans (advance_engine s v)
  · exact step_engine_of_holds hh hc ha h

/-- Settles O8: the reads of a phase are the laws of HostRead, and the constancy is that of an instance that holds. -/
theorem holdPhasesKeepAndShowTheirState : Obligations.HoldPhasesKeepAndShowTheirState := by
  refine ⟨fun s => ⟨rfl, rfl, rfl⟩, fun s v hi hp => ?_, fun s v hp => ?_, fun s v hp => ?_,
    fun s t v hh h hstart hclear hreset => step_keeps_held_engine hh h hstart hclear hreset⟩
  · obtain ⟨hcause, herrkind⟩ := hi.no_error_of_idle hp
    refine ⟨Engine.hostRead_status _ hp, ?_, ?_, fun i h => Engine.hostRead_digest_refused _ hp (by decide) h⟩
    · rw [hostRead, Engine.hostRead_cause, hcause]
      rfl
    · rw [hostRead, Engine.hostRead_errkind, herrkind]
  · exact ⟨Engine.hostRead_status _ hp, fun i h => Engine.hostRead_digest_done _ hp h⟩
  · exact ⟨Engine.hostRead_status _ hp, Engine.hostRead_cause _, Engine.hostRead_errkind _,
      fun i h => Engine.hostRead_digest_refused _ hp (by decide) h⟩

end Sys2Proof.Machine
end

