-- ==== Sys2Proof/Proofs/Hex.lean ====
section
/-! PROOF. The hexadecimal rendering of a byte string (spec/45_digest_driver.md R182): the digits of a byte, then the string
by induction over the bytes, then the obligation. -/

namespace Sys2Proof.Machine

theorem hexDigit_mem (n : BitVec 4) : hexDigit n ∈ hexDigits.toList :=
  Vector.mem_toList_iff.2 (Vector.getElem_mem _)

/-- The digits are distinct, so a digit's place gives its four bits back. -/
theorem unhexDigit_hexDigit (n : BitVec 4) : unhexDigit (hexDigit n) = some n := by
  revert n
  decide

theorem some_hexDigit (n : BitVec 4) : some (hexDigit n) = hexDigits.toList[n.toNat]? := by
  rw [Vector.getElem?_toList, Vector.getElem?_eq_getElem n.isLt]
  rfl

section
variable (b : Byte)

theorem toNat_upperNibble : (b.extractLsb' 4 4).toNat = b.toNat / 16 := by
  have hb := b.isLt
  rw [BitVec.extractLsb'_toNat, Nat.shiftRight_eq_div_pow]
  omega

theorem toNat_lowerNibble : (b.extractLsb' 0 4).toNat = b.toNat % 16 := by
  rw [BitVec.extractLsb'_toNat, Nat.shiftRight_zero]

theorem nibbles_append : b.extractLsb' 4 4 ++ b.extractLsb' 0 4 = b :=
  BitVec.extractLsb'_append_extractLsb' (w := 4) (len := 4)

end

theorem length_hex (d : List Byte) : (hex d).length = 2 * d.length := by
  induction d with
  | nil => rfl
  | cons b bs ih =>
    simp only [hex, List.length_cons, ih]
    omega

theorem mem_hexDigits_of_mem_hex {d : List Byte} {c : Char} (hc : c ∈ hex d) : c ∈ hexDigits.toList := by
  induction d with
  | nil => cases hc
  | cons b bs ih =>
    simp only [hex, List.mem_cons] at hc
    obtain rfl | rfl | hrest := hc
    · exact hexDigit_mem _
    · exact hexDigit_mem _
    · exact ih hrest

theorem unhex_hex (d : List Byte) : unhex (hex d) = some d := by
  induction d with
  | nil => rfl
  | cons b bs ih => simp only [hex, unhex, unhexDigit_hexDigit, ih, nibbles_append]

/-- Byte `i` gives the characters `2i` and `2i+1` (R182). -/
theorem getElem?_hex {d : List Byte} {i : Nat} (h : i < d.length) :
    (hex d)[2 * i]? = some (hexDigit (d[i].extractLsb' 4 4)) ∧
    (hex d)[2 * i + 1]? = some (hexDigit (d[i].extractLsb' 0 4)) := by
  induction d generalizing i with
  | nil => cases h
  | cons b bs ih =>
    cases i with
    | zero => exact ⟨rfl, rfl⟩
    | succ i => exact ih (Nat.lt_of_succ_lt_succ h)

/-- Settles O49: the characters of each byte are the digits of its two halves. -/
theorem hexRoundTrip : Obligations.HexRoundTrip := by
  refine fun d => ⟨length_hex d, fun c hc => mem_hexDigits_of_mem_hex hc, unhex_hex d, fun i h => ?_⟩
  obtain ⟨hupper, hlower⟩ := getElem?_hex h
  rw [hupper, hlower, some_hexDigit, some_hexDigit, toNat_upperNibble, toNat_lowerNibble]
  exact ⟨rfl, rfl⟩

end Sys2Proof.Machine
end

