-- ==== Sys2Proof/Proofs/ErrorEntry.lean ====
section
/-! PROOF. The entry to ERROR (spec/60_exceptions.md R190, R194, R195): what the recorded cause and kind can be, why a READ
that ends in ERROR has raised and done nothing else, then the obligation. -/

namespace Sys2Proof.Machine

/-! ### The recorded values -/

theorem Cause.code_cases (x : Cause) : x.code = 1#2 ∨ x.code = 2#2 ∨ x.code = 3#2 := by
  cases x <;> simp [Cause.code]

/-- Only a source failure has a kind to record (R37). -/
theorem Cause.kind_eq_zero {x : Cause} (h : x.code ≠ 1#2) : x.kind = 0#8 := by
  cases x with
  | srcIoFailure kind => exact absurd rfl h
  | srcProtocol => rfl
  | lengthOverflow => rfl

/-! ### READ into ERROR -/

/-- An answer that leads to ERROR has raised: the end of the stream and a taken chunk go on to PAD or READ (R135). -/
theorem Engine.readAnswer_eq_raise {v : Variant} {e : Engine v} {a : SrcAnswer}
    (herr : (e.readAnswer a).inPhase .error = true) : ∃ x, e.readAnswer a = e.raise x := by
  rcases e.readAnswer_cases a with ⟨kind, -, hstep⟩ | ⟨-, -, -, hstep⟩ | ⟨-, hstep⟩ | ⟨-, -, -, -, -, -, hstep⟩ |
    ⟨d, hfit, -, -, -, -, hstep⟩
  · exact ⟨.srcIoFailure kind, hstep⟩
  · exact ⟨.srcProtocol, hstep⟩
  · rw [hstep, Engine.inPhase_iff, Engine.setPhase_SEQ, Phase.code_inj] at herr
    cases herr
  · exact ⟨.lengthOverflow, hstep⟩
  · rw [hstep, Engine.inPhase_iff, Engine.takeBytes_SEQ, Phase.code_inj] at herr
    split at herr <;> cases herr

/-- A READ that takes its instance from READ to ERROR is error entry (R194); while it waits, the instance stays in READ. -/
theorem exec_read_eq_raise {s t : State} (hread : (s.engine s.cur).inPhase .read = true) (h : exec .read s = .next t)
    (herr : (t.engine s.cur).inPhase .error = true) : ∃ x, t.engine s.cur = (s.engine s.cur).raise x := by
  rcases execOfPhase_engine (p := .read) (T := 0#7) h with ⟨hwait, -⟩ | ⟨-, a, hstep⟩ | hother
  · rw [hwait, Engine.inPhase_of_code (Engine.inPhase_iff.1 hread)] at herr
    cases herr
  · rw [hstep] at herr ⊢
    exact Engine.readAnswer_eq_raise herr
  · simp at hother

/-- Settles O12: the reads are the laws of HostRead in ERROR, and the recorded values and the frame are those of error
entry. -/
theorem hostSeesAnErrorAndNoDigest : Obligations.HostSeesAnErrorAndNoDigest := by
  intro s t hread h herr
  obtain ⟨x, hraise⟩ := exec_read_eq_raise hread h herr
  refine ⟨Engine.hostRead_status _ herr, Engine.hostRead_cause _, ?_, Engine.hostRead_errkind _, ?_,
    fun i hi => Engine.hostRead_digest_refused _ herr (by decide) hi, ?_⟩ <;> rw [hraise]
  · exact x.code_cases
  · exact x.kind_eq_zero
  · exact ⟨rfl, Engine.raise_sameExcept _ x⟩

end Sys2Proof.Machine
end


-- ==== Sys2Proof/Proofs/Encoding.lean ====
section
/-! PROOF. The two formats (spec/30_encoding.md R81, R83, R84): which command words and which sequencer words decode,
and to what, then the obligations. -/

namespace Sys2Proof

/-! ### Command words -/

/-- A defined command word is the word of its START or CLEAR (R81). -/
theorem eq_cmdWord_of_decodeCmd {w : BitVec 8} {i : Instr} (h : decodeCmd w = .ok i) :
    ∃ v, (i = .start v ∧ w = cmdWord 1#3 v) ∨ (i = .clear v ∧ w = cmdWord 2#3 v) := by
  by_cases hstart : ∃ v, w = cmdWord 1#3 v
  · obtain ⟨v, rfl⟩ := hstart
    cases (Laws.RoundTrip.start v rfl).symm.trans h
    exact ⟨v, .inl ⟨rfl, rfl⟩⟩
  by_cases hclear : ∃ v, w = cmdWord 2#3 v
  · obtain ⟨v, rfl⟩ := hclear
    cases (Laws.RoundTrip.clear v rfl).symm.trans h
    exact ⟨v, .inr ⟨rfl, rfl⟩⟩
  rw [decodeCmd_undefined (not_exists.1 hstart) (not_exists.1 hclear)] at h
  cases h

theorem encode_of_decodeCmd {w : BitVec 8} {i : Instr} (h : decodeCmd w = .ok i) : encode i = .cmd w := by
  obtain ⟨v, ⟨rfl, rfl⟩ | ⟨rfl, rfl⟩⟩ := eq_cmdWord_of_decodeCmd h <;> rfl

/-! ### Sequencer words -/

theorem Phase.ofCode_eq_none {c : BitVec 4} (h : 12 ≤ c.toNat) : Phase.ofCode c = none := by
  revert c
  decide

/-- A sequencer word is its two fields side by side (R83). -/
theorem seqPhase_append_seqT (w : BitVec 11) : seqPhase w ++ seqT w = w :=
  BitVec.extractLsb'_append_extractLsb' (w := 4) (len := 7)

/-- A word whose PHASE is the code of a phase decodes to that phase's instruction (R84). -/
theorem decodeSeq_of_code {w : BitVec 11} {p : Phase} (h : seqPhase w = p.code) :
    decodeSeq w = .ok (Instr.ofPhase p (seqT w)) := by
  simp only [decodeSeq, h, Phase.ofCode_code]

theorem decodeSeq_unreachable {w : BitVec 11} (h : 12 ≤ (seqPhase w).toNat) :
    decodeSeq w = .error (.unreachablePhase (seqPhase w)) := by
  simp only [decodeSeq, Phase.ofCode_eq_none h]

/-- Only words with the code of a phase decode (R87 b). -/
theorem exists_phase_of_decodeSeq {w : BitVec 11} {i : Instr} (h : decodeSeq w = .ok i) :
    ∃ p : Phase, seqPhase w = p.code ∧ i = Instr.ofPhase p (seqT w) := by
  by_cases hlegal : (seqPhase w).toNat ≤ 11
  · obtain ⟨p, hp⟩ := Phase.exists_code hlegal
    cases (decodeSeq_of_code hp).symm.trans h
    exact ⟨p, hp, rfl⟩
  · rw [decodeSeq_unreachable (Nat.lt_of_not_le hlegal)] at h
    cases h

/-- ROUND alone has the index for an operand (R83). -/
theorem Instr.ofPhase_of_ne_round {p : Phase} (h : p ≠ .round) (t t' : BitVec 7) :
    Instr.ofPhase p t = Instr.ofPhase p t' := by
  cases p
  case round => exact absurd rfl h
  all_goals rfl

/-- The encoder writes an index that the phase ignores as zero (log entry 21). -/
theorem encode_ofPhase_of_ne_round {p : Phase} (h : p ≠ .round) (t : BitVec 7) :
    encode (Instr.ofPhase p t) = .seq (p.code ++ 0#7) := by
  cases p
  case round => exact absurd rfl h
  all_goals rfl

theorem encode_of_decodeSeq {w : BitVec 11} {i : Instr} (h : decodeSeq w = .ok i) :
    encode i = .seq w ∨ (seqPhase w ≠ 7#4 ∧ encode i = .seq (seqPhase w ++ 0#7)) := by
  obtain ⟨p, hp, rfl⟩ := exists_phase_of_decodeSeq h
  by_cases hround : p = .round
  · subst hround
    left
    calc encode (.round (seqT w)) = .seq (Phase.round.code ++ seqT w) := rfl
      _ = .seq w := by rw [← hp, seqPhase_append_seqT]
  · right
    rw [hp]
    exact ⟨fun h7 => hround (Phase.code_inj.1 h7), encode_ofPhase_of_ne_round hround _⟩

/-! ### The obligations -/

/-- Settles O1: the round trips of the instructions, and the words that decode in each of the two formats. -/
theorem decodeAndEncodeAgree : Obligations.DecodeAndEncodeAgree := by
  refine ⟨fun i hwf => ?_, fun w i h => encode_of_decodeCmd h, fun w i h => encode_of_decodeSeq h⟩
  cases i with
  | start v => exact Laws.RoundTrip.start v hwf
  | clear v => exact Laws.RoundTrip.clear v hwf
  | idle => exact Laws.RoundTrip.idle hwf
  | clrbuf => exact Laws.RoundTrip.clrbuf hwf
  | read => exact Laws.RoundTrip.read hwf
  | pad => exact Laws.RoundTrip.pad hwf
  | parse => exact Laws.RoundTrip.parse hwf
  | expand => exact Laws.RoundTrip.expand hwf
  | load => exact Laws.RoundTrip.load hwf
  | round t => exact Laws.RoundTrip.round t hwf
  | fold => exact Laws.RoundTrip.fold hwf
  | emit => exact Laws.RoundTrip.emit hwf
  | done => exact Laws.RoundTrip.done hwf
  | error => exact Laws.RoundTrip.error hwf

theorem toNat_seqPhase_mul_add_seqT (w : BitVec 11) : (seqPhase w).toNat * 128 + (seqT w).toNat = w.toNat := by
  have hw := w.isLt
  simp only [seqPhase, seqT, BitVec.extractLsb'_toNat, Nat.shiftRight_eq_div_pow]
  omega

/-- Settles O3: a word decodes by the phase its code names, and only ROUND's instruction depends on the index. -/
theorem sequencerWordsDecodeByPhase : Obligations.SequencerWordsDecodeByPhase := by
  refine fun w => ⟨toNat_seqPhase_mul_add_seqT w, fun h => decodeSeq_of_code (p := .round) h,
    fun h => decodeSeq_unreachable h, fun hlegal hround w' hsame => ?_⟩
  obtain ⟨p, hp⟩ := Phase.exists_code (Nat.le_of_lt_succ hlegal)
  have hp7 : p ≠ .round := fun h => hround (by rw [hp, h]; rfl)
  rw [decodeSeq_of_code hp, decodeSeq_of_code (hsame.trans hp), Instr.ofPhase_of_ne_round hp7 (seqT w') (seqT w)]
  exact ⟨rfl, _, rfl⟩

/-- Settles O4: the four command words by their round trips, the sequencer words by the phase of their code. -/
theorem sampleWordsDecode : Obligations.SampleWordsDecode := by
  refine ⟨Laws.RoundTrip.start .e256 rfl, Laws.RoundTrip.start .e512 rfl, Laws.RoundTrip.clear .e256 rfl,
    Laws.RoundTrip.clear .e512 rfl, ?_⟩
  exact ⟨rfl, rfl, rfl, rfl, rfl, rfl, rfl, rfl, rfl, rfl, rfl, rfl⟩

end Sys2Proof
end

