-- ==== Sys2Proof/Proofs/HostCommands.lean ====
section
/-! PROOF. The host commands (spec/45_digest_driver.md R172, R173; spec/30_encoding.md R82): what START and CLEAR
answer, when the step takes them, and what a START with its CLRBUF leaves, then the obligations. -/

namespace Sys2Proof.Machine

/-! ### START and CLEAR -/

section
variable {s : State} {v : Variant}

theorem exec_start_of_holds (h : (s.engine v).holds = true) :
    exec (.start v) s = .next (s.setEngine v ((s.engine v).startStep s.freeCount)).drawFree :=
  if_pos h

theorem exec_clear_of_holds (h : (s.engine v).holds = true) :
    exec (.clear v) s = .next (s.setEngine v ((s.engine v).toIdle s.freeCount)).drawFree :=
  if_pos h

theorem exec_start_of_busy (h : (s.engine v).holds = false) : exec (.start v) s = .next s :=
  if_neg (Bool.eq_false_iff.1 h)

theorem exec_clear_of_busy (h : (s.engine v).holds = false) : exec (.clear v) s = .next s :=
  if_neg (Bool.eq_false_iff.1 h)

theorem Engine.inPhase_startStep (e : Engine v) (k : Nat) : (e.startStep k).inPhase .clrbuf = true :=
  Engine.inPhase_iff.2 rfl

theorem Engine.inPhase_toIdle (e : Engine v) (k : Nat) : (e.toIdle k).inPhase .idle = true :=
  Engine.inPhase_iff.2 rfl

/-- A command draws free values and touches nothing else outside the instance it writes. -/
theorem setEngine_drawFree_sameElsewhere (e : Engine v) : SameElsewhere v s (s.setEngine v e).drawFree :=
  { setEngine_onlyEngine s v e with }

end

/-- Settles O5: the elements are those `startStep` writes; an instance in CLRBUF shows a busy STATUS and no digest. -/
theorem startBeginsAFreshComputation : Obligations.StartBeginsAFreshComputation := by
  refine fun s v => ⟨fun hh => ⟨_, exec_start_of_holds hh, ?_⟩, exec_start_of_busy⟩
  have hphase := (s.engine v).inPhase_startStep s.freeCount
  simp only [hostRead, State.engine_drawFree, State.engine_setEngine_self]
  exact ⟨rfl, rfl, rfl, rfl, rfl, rfl, rfl, Engine.status_of_inPhase hphase,
    fun i hi => Engine.hostRead_digest_refused _ hphase (by decide) hi, fun _ => rfl, rfl,
    setEngine_drawFree_sameElsewhere _⟩

/-- Settles O6: the elements are those `toIdle` writes, and an instance in IDLE shows a zero STATUS and no digest. -/
theorem clearReturnsToIdle : Obligations.ClearReturnsToIdle := by
  refine fun s v => ⟨fun hh => ⟨_, exec_clear_of_holds hh, ?_⟩, exec_clear_of_busy⟩
  have hphase := (s.engine v).inPhase_toIdle s.freeCount
  simp only [hostRead, State.engine_drawFree, State.engine_setEngine_self]
  exact ⟨rfl, rfl, rfl, Engine.status_of_inPhase hphase,
    fun i hi => Engine.hostRead_digest_refused _ hphase (by decide) hi, setEngine_drawFree_sameElsewhere _⟩

/-! ### START and the CLRBUF after it -/

/-- The step of the instance that has been selected. -/
theorem engine_onCur_select (s : State) (v : Variant) (f : (v : Variant) → Engine v → Engine v) :
    ((select s v).onCur f).engine v = f v (s.engine v) := by
  cases v <;> rfl

/-- START sets every element but R, M, WS, DIGEST, BUF and CNT, and CLRBUF sets the last two. -/
theorem Engine.clrbufStep_startStep_sameExcept {v : Variant} (e e' : Engine v) (k k' : Nat) :
    (e.startStep k).clrbufStep.SameExcept [.R, .M, .WS, .DIGEST] (e'.startStep k').clrbufStep :=
  Engine.sameExcept_iff.2 (by simp)

/-- Settles O7: both instances end as their START and CLRBUF leave them. -/
theorem nothingSurvivesStartAndClrbuf : Obligations.NothingSurvivesStartAndClrbuf := by
  intro s s' v hh hh'
  refine ⟨_, _, _, _, exec_start_of_holds hh, exec_start_of_holds hh', rfl, rfl, ?_⟩
  simp only [engine_onCur_select, State.engine_drawFree, State.engine_setEngine_self]
  exact Engine.clrbufStep_startStep_sameExcept _ _ _ _

/-! ### A command on port CMD -/

section
variable {s : State} {v : Variant}

/-- A defined command word whose instance holds is taken (R82). -/
theorem commandTaken_eq_some {w : BitVec 8} {i : Instr} (hcmd : s.cmd = some w) (hdecode : decodeCmd w = .ok i)
    (htarget : commandTarget i = some v) (hh : (s.engine v).holds = true) : commandTaken s = some i := by
  simp only [commandTaken, hcmd, hdecode, htarget, hh, if_true]

/-- The step that takes a START performs it at the state with the port free (R82). -/
theorem step_start (hcmd : s.cmd = some (cmdWord 1#3 v)) (hh : (s.engine v).holds = true) :
    step s = exec (.start v) (s.setCmd none) :=
  step_command (commandTaken_eq_some hcmd (Laws.RoundTrip.start v rfl) rfl hh)

/-- The step that takes a CLEAR performs it at the state with the port free (R82). -/
theorem step_clear (hcmd : s.cmd = some (cmdWord 2#3 v)) (hh : (s.engine v).holds = true) :
    step s = exec (.clear v) (s.setCmd none) :=
  step_command (commandTaken_eq_some hcmd (Laws.RoundTrip.clear v rfl) rfl hh)

end

/-- Settles O34: the two words are taken, and neither command drives the port again. -/
theorem stepTakesAnOfferedCommand : Obligations.StepTakesAnOfferedCommand := by
  intro s v hh
  have hfree : ((s.setCmd none).engine v).holds = true := by rwa [State.engine_setCmd]
  refine ⟨fun hcmd => ⟨step_start hcmd hh, fun t h => ?_⟩, fun hcmd => ⟨step_clear hcmd hh, fun t h => ?_⟩⟩
  · rw [step_start hcmd hh, exec_start_of_holds hfree] at h
    cases h
    simp
  · rw [step_clear hcmd hh, exec_clear_of_holds hfree] at h
    cases h
    simp

end Sys2Proof.Machine
end

