-- ==== Sys2Proof/Proofs/HostActs.lean ====
section
/-! PROOF. The host's side (spec/10_state.md R38, R43; spec/70_reset_and_hazards.md R220, R221): the register map, the step
in which the host does an act, and the reset, then the obligations. -/

namespace Sys2Proof.Machine

/-! ### The register map -/

/-- Beyond ERRKIND and outside DIGEST the map has no register (R38). -/
theorem Engine.hostRead_reserved {v : Variant} (e : Engine v) {reg : BitVec 8} (hlow : 3 ≤ reg.toNat)
    (hout : reg.toNat < 0x40 ∨ 0x40 + v.DB ≤ reg.toNat) : e.hostRead reg = .refused .reservedRegister := by
  have hne (r : BitVec 8) (hr : r.toNat < 3) : reg ≠ r := by
    rintro rfl
    omega
  have hdigest : ¬ (0x40 ≤ reg.toNat ∧ reg.toNat < 0x40 + v.DB) := by omega
  simp only [Engine.hostRead, if_neg (hne 0x00#8 (by decide)), if_neg (hne 0x01#8 (by decide)),
    if_neg (hne 0x02#8 (by decide)), dif_neg hdigest]

/-! ### An act of the host -/

section
variable {s : State} {a : HostAct} {rest : List HostAct} (hhost : s.host = a :: rest)
include hhost

theorem hostTurn_of_ready (hready : a.waits s = false) : hostTurn s = (hostEffect s a).setHost rest := by
  simp only [hostTurn, hhost, hready, Bool.false_eq_true, if_false]

theorem hostTurn_of_waits (hwaits : a.waits s = true) : hostTurn s = s := by
  simp only [hostTurn, hhost, hwaits, if_true]

end

/-- Settles O30: the registers one by one, and the read as an act, which writes the log alone. -/
theorem hostRegisterMap : Obligations.HostRegisterMap := by
  refine ⟨fun s v reg => ⟨?_, ?_, ?_, fun i hi hreg => ?_, fun hlow hout => Engine.hostRead_reserved _ hlow hout⟩,
    fun s v reg rest hc ha hhost => ⟨_, step_host hc ha, ?_⟩⟩
  · rintro rfl
    rfl
  · rintro rfl
    exact ⟨_, Engine.hostRead_cause _, BitVec.toNat_setWidth_of_le (by decide)⟩
  · rintro rfl
    exact Engine.hostRead_errkind _
  · have hofNat : reg = BitVec.ofNat 8 (0x40 + i) := by rw [← hreg, BitVec.ofNat_toNat, BitVec.setWidth_eq]
    rw [hofNat]
    exact Engine.hostRead_digest _ hi
  · rw [hostTurn_of_ready (s := advance s) hhost rfl]
    simp [hostEffect, hostRead]

/-- The acts other than the reset draw no free value and select no instance. -/
theorem hostEffect_model_fields (s : State) {a : HostAct} (ha : a ≠ .reset) :
    (hostEffect s a).freeCount = s.freeCount ∧ (hostEffect s a).cur = s.cur := by
  cases a
  case reset => exact absurd rfl ha
  all_goals simp [hostEffect]

theorem hostTurn_model_fields {s : State} (h : s.host.head? ≠ some .reset) :
    (hostTurn s).freeCount = s.freeCount ∧ (hostTurn s).cur = s.cur := by
  obtain hstay | ⟨a, rest, hhost, -, hturn⟩ := hostTurn_cases s
  · rw [hstay]
    exact ⟨rfl, rfl⟩
  · have ha : a ≠ .reset := by
      rintro rfl
      exact h (by rw [hhost]; rfl)
    rw [hturn]
    exact hostEffect_model_fields s ha

/-- Settles O50: no act but the reset reaches an engine, and outside them each act does what `hostEffect` says. -/
theorem hostActsReachNoEngineState : Obligations.HostActsReachNoEngineState := by
  intro s hc ha hreset
  have hreset' : (advance s).host.head? ≠ some .reset := hreset
  obtain ⟨hfree, hcur⟩ := hostTurn_model_fields hreset'
  refine ⟨_, step_host hc ha, fun v => (hostTurn_engine hreset' v).trans (advance_engine s v), hfree, hcur,
    fun w rest hhost => ?_, fun rest hhost => ?_, fun v src rest hhost => ?_, fun v rest hhost => ?_⟩
  · rw [hostTurn_of_ready (s := advance s) hhost rfl]
    simp [hostEffect]
  · rw [hostTurn_of_ready (s := advance s) hhost rfl]
    simp [hostEffect]
  · rw [hostTurn_of_ready (s := advance s) hhost rfl]
    simp [hostEffect]
  · have hwaits : HostAct.waits (advance s) (.waitIdle v) = (s.engine v).busy := by simp [HostAct.waits]
    cases hbusy : (s.engine v).busy with
    | true =>
      rw [hostTurn_of_waits (s := advance s) hhost (hwaits.trans hbusy)]
      simp
    | false =>
      rw [hostTurn_of_ready (s := advance s) hhost (hwaits.trans hbusy)]
      simp [hostEffect]

/-! ### Reset -/

/-- Settles O31: SEQ, CAUSE and ERRKIND are as R43 says, and IDLE shows a zero STATUS. -/
theorem resetStateIsIdle : Obligations.ResetStateIsIdle := by
  intro v
  cases v <;> exact ⟨rfl, rfl, rfl, rfl⟩

/-- The hardware reset takes every instance to IDLE (R220). -/
theorem hardwareReset_engine (s : State) (v : Variant) :
    (hardwareReset s).engine v = (s.engine v).toIdle s.freeCount := by
  cases v <;> rfl

/-- The reset as the host's next act is always done (R220, R221). -/
theorem hostTurn_engine_of_reset {s : State} (h : s.host.head? = some .reset) (v : Variant) :
    (hostTurn s).engine v = (s.engine v).toIdle s.freeCount := by
  obtain ⟨rest, hhost⟩ := List.head?_eq_some_iff.1 h
  rw [hostTurn_of_ready hhost rfl, State.engine_setHost, hostEffect, hardwareReset_engine]

/-- Settles O32: the act takes both instances to IDLE and leaves what is not CORE's. -/
theorem hardwareResetAbandonsEverything : Obligations.HardwareResetAbandonsEverything := by
  refine fun s rest hc ha hhost => ⟨_, step_host hc ha, ?_⟩
  rw [hostTurn_of_ready (s := advance s) hhost rfl, hostEffect]
  refine ⟨rfl, rfl, fun v => by cases v <;> rfl, fun v => ?_⟩
  have hidle := (s.engine v).inPhase_toIdle s.freeCount
  simp only [hostRead, State.engine_setHost, hardwareReset_engine]
  exact ⟨rfl, rfl, rfl, Engine.status_of_inPhase (hidle),
    fun i hi => Engine.hostRead_digest_refused _ (hidle) (by decide) hi⟩

end Sys2Proof.Machine
end

