-- ==== Sys2Proof/Proofs/Invariant.lean ====
section
/-! PROOF. The invariant of the machine holds at reset, and every step keeps it: the two commands, the acts of the host
and the micro-operations in turn, then the obligations. -/

namespace Sys2Proof.Machine

/-! ### Reset -/

theorem Engine.Inv.reset (v : Variant) : (Engine.reset v).Inv := by
  have hq : (Engine.reset v).SEQ.PHASE = Phase.idle.code := rfl
  constructor <;> try simp [Engine.inAny, Engine.inPhase_of_code hq]
  case phase_legal => exact Phase.code_le .idle
  case index_le => exact Nat.zero_le _
  case buf_wf => rfl
  case cause_none => rfl
  case errkind => exact fun _ => rfl

/-- Settles O42: both instances are at their reset values. -/
theorem invariantHoldsAtReset : Obligations.InvariantHoldsAtReset := by
  intro v
  cases v
  · exact Engine.Inv.reset .e256
  · exact Engine.Inv.reset .e512

/-! ### What keeps it -/

section
variable {s t : State}

/-- The invariant speaks of the instances alone. -/
theorem State.Inv.of_engines (hi : s.Inv) (h : ∀ u, t.engine u = s.engine u) : t.Inv := by
  intro u
  rw [h u]
  exact hi u

theorem State.Inv.setEngine (hi : s.Inv) {v : Variant} {e : Engine v} (he : e.Inv) : (s.setEngine v e).Inv := by
  intro u
  by_cases hu : u = v
  · subst hu
    rwa [State.engine_setEngine_self]
  · rw [State.engine_setEngine_ne s v e hu]
    exact hi u

/-- A command that is taken leaves its instance fresh, or in IDLE (R172, R173). -/
theorem State.Inv.command (hi : s.Inv) {v : Variant} {i : Instr} (hv : i = .start v ∨ i = .clear v)
    (hh : (s.engine v).holds = true) (h : exec i s = .next t) : t.Inv := by
  obtain rfl | rfl := hv
  · cases (exec_start_of_holds hh).symm.trans h
    exact (hi.setEngine (Engine.Inv.startStep (hi v).buf_wf _)).of_engines (State.engine_drawFree _)
  · cases (exec_clear_of_holds hh).symm.trans h
    exact (hi.setEngine (Engine.Inv.toIdle _ _)).of_engines (State.engine_drawFree _)

/-- Only the hardware reset reaches an instance from the host's side, and it leaves it in IDLE (R221). -/
theorem State.Inv.hostTurn (hi : s.Inv) : (Machine.hostTurn s).Inv := by
  intro u
  by_cases hreset : s.host.head? = some .reset
  · rw [hostTurn_engine_of_reset hreset]
    exact Engine.Inv.toIdle _ _
  · rw [hostTurn_engine hreset]
    exact hi u

/-- Each micro-operation keeps the invariant of its instance: one law of `Engine.Inv` a phase. -/
theorem State.Inv.microOp (hi : s.Inv) {p : Phase} (hp : (s.engine s.cur).SEQ.PHASE = p.code)
    (h : exec (Instr.ofPhase p (s.engine s.cur).SEQ.T) s = .next t) : t.Inv := by
  intro u
  by_cases hu : u = s.cur
  · subst hu
    have hcur := hi s.cur
    rcases execOfPhase_engine h with ⟨he, -⟩ | ⟨rfl, a, he⟩ | ⟨rfl, he⟩ | ⟨rfl, he⟩ | ⟨rfl, he⟩ | ⟨rfl, he⟩ |
      ⟨rfl, he⟩ | ⟨rfl, hT, he⟩ | ⟨rfl, he⟩ | ⟨rfl, he⟩ <;> rw [he]
    · exact hcur
    · exact hcur.readAnswer hp a
    · exact hcur.clrbufStep hp
    · exact hcur.padStep hp
    · exact hcur.parseStep hp
    · exact hcur.expandStep hp
    · exact hcur.loadStep hp
    · exact hcur.roundStep hp hT
    · exact hcur.foldStep hp
    · exact hcur.emitStep hp
  · obtain ⟨hothers, -⟩ := execOfPhase_frame h
    rw [(hothers u hu).1]
    exact hi u

end

/-- Settles O43: a step takes a command, is an act of the host, or is a micro-operation; each keeps the invariant. -/
theorem everyStepKeepsTheInvariant : Obligations.EveryStepKeepsTheInvariant := by
  intro s t hi h
  rcases step_cases h with ⟨i, hi', hexec⟩ | ⟨-, -, rfl⟩ | ⟨v, i, hc, ha, -, -⟩
  · obtain ⟨_, v, -, -, -, hh, hv⟩ := commandTaken_spec hi'
    exact (hi.of_engines (State.engine_setCmd s · none)).command hv (by rwa [State.engine_setCmd]) hexec
  · exact (hi.of_engines (advance_engine s)).hostTurn
  · obtain ⟨p, hp, hexec⟩ := step_runs_phase hc ha h
    have hcur : ((select s v).engine (select s v).cur) = s.engine v := select_engine s v v
    exact (hi.of_engines (select_engine s · v)).microOp (by rw [hcur]; exact hp) (by rw [hcur]; exact hexec)

end Sys2Proof.Machine
end

