-- ==== Sys2Proof/Proofs/MachineStep.lean ====
section
/-! PROOF. The step of an instance (spec/45_digest_driver.md R170; spec/30_encoding.md R87) as a function of that instance
and its port alone, and what follows for stops, for a word on port CMD and for the other instance: the obligations. -/

namespace Sys2Proof.Machine

/-! ### The step of an instance -/

/-- What one step of an instance makes of it and of its port: the micro-operation its PHASE names. Nothing else of the
machine has a part in it; `step_eq_ofTick` ties it to the model's step. -/
def Engine.tick {v : Variant} (e : Engine v) (q : SrcPort) : Except Fault (Engine v × SrcPort) :=
  match Phase.ofCode e.SEQ.PHASE with
  | none => .error .unreachablePhase
  | some .idle => .ok (e, q)
  | some .clrbuf => .ok (e.clrbufStep, q)
  | some .read =>
    match q.source.answer e.requestSize with
    | none => .ok (e, q)
    | some (a, src) => .ok (e.readAnswer a, ⟨src, q.requests ++ [e.requestSize]⟩)
  | some .pad => .ok (e.padStep, q)
  | some .parse => .ok (e.parseStep, q)
  | some .expand => .ok (e.expandStep, q)
  | some .load => .ok (e.loadStep, q)
  | some .round => if h : e.SEQ.T.toNat < v.N then .ok (e.roundStep e.SEQ.T h, q) else .error .roundIndexOutOfRange
  | some .fold => .ok (e.foldStep, q)
  | some .emit => .ok (e.emitStep, q)
  | some .done => .ok (e, q)
  | some .error => .ok (e, q)

/-- The machine after a step of one instance. -/
def State.ofTick (s : State) (v : Variant) : Except Fault (Engine v × SrcPort) → Host.Outcome State Fault Refusal
  | .ok (e, q) => .next ((s.setPort v q).setEngine v e)
  | .error f => .fault f

/-- A micro-operation writes the instance that moves; READ writes its port too. -/
theorem exec_ofPhase_eq_ofTick {s : State} {p : Phase} (hp : (s.engine s.cur).SEQ.PHASE = p.code) :
    exec (Instr.ofPhase p (s.engine s.cur).SEQ.T) s = s.ofTick s.cur ((s.engine s.cur).tick (s.port s.cur)) := by
  simp only [Engine.tick, hp, Phase.ofCode_code]
  cases p <;> simp only [Instr.ofPhase, exec]
  case read =>
    cases ha : (s.port s.cur).source.answer (s.engine s.cur).requestSize with
    | none => simp [execRead_wait ha, State.ofTick]
    | some answer => simp [execRead_answer ha, State.ofTick]
  case round =>
    by_cases hT : (s.engine s.cur).SEQ.T.toNat < s.cur.N
    · simp [execRound_of_lt hT, hT, State.ofTick]
    · simp [execRound, hT, State.ofTick]
  all_goals
    simp [execIdle, execDone, execError, execClrbuf, execPad, execParse, execExpand, execLoad, execFold, execEmit,
      State.onCur, State.ofTick]

theorem Engine.tick_unreachable {v : Variant} {e : Engine v} (h : 12 ≤ e.SEQ.PHASE.toNat) (q : SrcPort) :
    e.tick q = .error .unreachablePhase := by
  simp only [Engine.tick, Phase.ofCode_eq_none h]

section
variable {s : State} {v : Variant} (hc : commandTaken s = none) (ha : nextAgent s = .engine v)
include hc ha

/-- When an instance moves, the step is that of the instance and its port, and stops where that stops. -/
theorem step_eq_ofTick : step s = (select s v).ofTick v ((s.engine v).tick (s.port v)) := by
  by_cases hlegal : (s.engine v).SEQ.PHASE.toNat ≤ 11
  · obtain ⟨p, hp⟩ := Phase.exists_code hlegal
    have hexec := exec_ofPhase_eq_ofTick (s := select s v) (p := p) (by rw [select_cur, select_engine]; exact hp)
    simp only [select_cur, select_engine, select_port] at hexec
    rw [step_engine hc ha (nextInstr_of_code hp), hexec]
  · have hcode : 12 ≤ (s.engine v).SEQ.PHASE.toNat := Nat.lt_of_not_le hlegal
    have hdecode : nextInstr s v = .error (.unreachablePhase (s.engine v).SEQ.PHASE) := by
      rw [nextInstr, decodeSeq_unreachable, seqPhase_toWord]
      rwa [seqPhase_toWord]
    simp only [step, hc, ha, hdecode, Engine.tick_unreachable hcode, State.ofTick]

theorem step_of_tick_ok {e : Engine v} {q : SrcPort} (h : (s.engine v).tick (s.port v) = .ok (e, q)) :
    step s = .next (((select s v).setPort v q).setEngine v e) := by
  rw [step_eq_ofTick hc ha, h, State.ofTick]

end

theorem exists_tick_of_step {s t : State} {v : Variant} (h : step s = .next t) (hc : commandTaken s = none)
    (ha : nextAgent s = .engine v) :
    ∃ e q, (s.engine v).tick (s.port v) = .ok (e, q) ∧ t = ((select s v).setPort v q).setEngine v e := by
  rw [step_eq_ofTick hc ha] at h
  cases htick : (s.engine v).tick (s.port v) with
  | ok x =>
    rw [htick] at h
    cases h
    exact ⟨x.1, x.2, rfl, rfl⟩
  | error f =>
    rw [htick] at h
    cases h

/-- Settles O33: the instruction is the one `nextInstr` decodes, and a code without a phase stops the instance. -/
theorem stepRunsTheDecodedInstruction : Obligations.StepRunsTheDecodedInstruction := by
  refine fun s v hc ha => ⟨fun i hdecode _ => step_engine hc ha hdecode, fun hcode => ?_⟩
  rw [step_eq_ofTick hc ha, Engine.tick_unreachable hcode, State.ofTick]

/-! ### Stops and waits -/

/-- Settles O18: such an index has no branch of `execRound` but the fault. -/
theorem roundBeyondTheScheduleStops : Obligations.RoundBeyondTheScheduleStops :=
  fun _ _ h => dif_neg (Nat.not_lt.2 h)

/-- Settles O11: the request is the one READ makes, and it is not answered. -/
theorem readWaitsForItsSource : Obligations.ReadWaitsForItsSource :=
  fun _ h => execRead_wait h

/-- Where the invariant holds, no index is beyond the schedule and no code is without a phase. -/
theorem Engine.Inv.tick_ok {v : Variant} {e : Engine v} (hi : e.Inv) (q : SrcPort) : ∃ x, e.tick q = .ok x := by
  obtain ⟨p, hp⟩ := Phase.exists_code hi.phase_legal
  simp only [Engine.tick, hp, Phase.ofCode_code]
  cases p
  case read =>
    cases q.source.answer e.requestSize with
    | none => exact ⟨_, rfl⟩
    | some answer => exact ⟨_, rfl⟩
  case round => exact ⟨_, dif_pos (hi.index_round (Engine.inPhase_iff.2 hp))⟩
  all_goals exact ⟨_, rfl⟩

/-- Settles O44: a command that is taken finds its instance holding, the host always moves on, and an instance does not
stop. -/
theorem invariantStatesNeverStop : Obligations.InvariantStatesNeverStop := by
  intro s hi
  cases hc : commandTaken s with
  | some i =>
    obtain ⟨_, v, -, -, htarget, hh, rfl | rfl⟩ := commandTaken_spec hc
    all_goals
      cases htarget
      rw [← State.engine_setCmd s v none] at hh
    · exact ⟨_, (step_command hc).trans (exec_start_of_holds hh)⟩
    · exact ⟨_, (step_command hc).trans (exec_clear_of_holds hh)⟩
  | none =>
    cases ha : nextAgent s with
    | host => exact ⟨_, step_host hc ha⟩
    | engine v =>
      obtain ⟨⟨e, q⟩, htick⟩ := (hi v).tick_ok (s.port v)
      exact ⟨_, step_of_tick_ok hc ha htick⟩

/-! ### A word that is not taken -/

/-- Neither an undefined word nor one for a busy instance is taken (R82, R87 a). -/
theorem commandTaken_eq_none {s : State} {w : BitVec 8} (hcmd : s.cmd = some w)
    (hnot : (∃ er, decodeCmd w = .error er) ∨
      ∃ i v, decodeCmd w = .ok i ∧ commandTarget i = some v ∧ (s.engine v).holds = false) : commandTaken s = none := by
  obtain ⟨er, herr⟩ | ⟨i, v, hok, htarget, hbusy⟩ := hnot
  · simp only [commandTaken, hcmd, herr]
  · simp [commandTaken, hcmd, hok, htarget, hbusy]

section
variable (s : State) (c : Option (BitVec 8))

/-- Who moves next does not depend on port CMD. -/
theorem nextAgent_setCmd : nextAgent (s.setCmd c) = nextAgent s := by
  have hwaits (a : HostAct) : a.waits (s.setCmd c) = a.waits s := by
    cases a <;> simp [HostAct.waits]
  have hready : hostReady (s.setCmd c) = hostReady s := by
    cases hhost : s.host <;> simp [hostReady, hhost, hwaits]
  simp only [nextAgent, hready, State.setCmd_schedule, State.setCmd_cur, State.engine_setCmd]

theorem setCmd_setPort_setEngine (v : Variant) (e : Engine v) (q : SrcPort) :
    ((s.setCmd c).setPort v q).setEngine v e = ((s.setPort v q).setEngine v e).setCmd c := by
  cases v <;> rfl

end

/-- Settles O35: with the word or without it the instance makes the same step of itself and its port, and that writes
nothing on port CMD. -/
theorem wordNotTakenHasNoEffect : Obligations.WordNotTakenHasNoEffect := by
  intro s w u hcmd hnot ha
  have hwith := step_eq_ofTick (commandTaken_eq_none hcmd hnot) ha
  have hwithout := step_eq_ofTick (s := s.setCmd none) rfl ((nextAgent_setCmd s none).trans ha)
  rw [State.engine_setCmd, State.port_setCmd] at hwithout
  have hselect : select s u = (select (s.setCmd none) u).setCmd (some w) := by
    rw [← hcmd]
    rfl
  rw [hwith, hwithout, hselect]
  cases (s.engine u).tick (s.port u) with
  | ok x =>
    refine ⟨fun t h => ?_, fun f h => nomatch h⟩
    cases h
    exact congrArg Host.Outcome.next (setCmd_setPort_setEngine _ _ _ _ _)
  | error f => exact ⟨fun t h => (nomatch h), fun f' h => h⟩

/-! ### The two instances -/

/-- A run that answers a next state has made each of its steps. -/
theorem run_succ_eq_next {s t : State} {k : Nat} :
    Host.Core.run Sys2Proof.core (k + 1) s = .next t ↔
      ∃ r, step s = .next r ∧ Host.Core.run Sys2Proof.core k r = .next t := by
  constructor
  · intro h
    cases hstep : step s with
    | next r => exact ⟨r, rfl, (run_next hstep k).symm.trans h⟩
    | fault f => simp [Host.Core.run, Sys2Proof.core, hstep] at h
    | refused f => simp [Host.Core.run, Sys2Proof.core, hstep] at h
  · rintro ⟨r, hstep, hrun⟩
    exact (run_next hstep k).trans hrun

theorem commandTaken_of_no_cmd {s : State} (hcmd : s.cmd = none) : commandTaken s = none := by
  simp only [commandTaken, hcmd]

/-- Settles O41: the step of an instance depends on itself and its port, which the other's step leaves as they were. -/
theorem interleavingDoesNotMatter : Obligations.InterleavingDoesNotMatter := by
  intro s t rest hcmd h
  obtain ⟨r, hfirst, h⟩ := run_succ_eq_next.1 h
  obtain ⟨_, hsecond, h⟩ := run_succ_eq_next.1 h
  cases h
  obtain ⟨e, q, htick, rfl⟩ := exists_tick_of_step hfirst (commandTaken_of_no_cmd hcmd) rfl
  obtain ⟨e', q', htick', rfl⟩ := exists_tick_of_step hsecond (commandTaken_of_no_cmd hcmd) rfl
  have hfirst' := step_of_tick_ok (s := { s with schedule := .engine .e512 :: .engine .e256 :: rest })
    (commandTaken_of_no_cmd hcmd) rfl htick'
  have hboth := run_succ_eq_next.2 ⟨_, hfirst', (run_succ_eq_next (k := 0)).2
    ⟨_, step_of_tick_ok (commandTaken_of_no_cmd (by exact hcmd)) (by rfl) htick, rfl⟩⟩
  exact ⟨_, hboth, fun v => by cases v <;> rfl, fun v => by cases v <;> rfl⟩

end Sys2Proof.Machine
end

