-- ==== Sys2Proof/Proofs/StepFrames.lean ====
section
/-! PROOF. What a step can change (spec/10_state.md R20 to R39; spec/20_memory.md R56 to R63; spec/45_digest_driver.md
R171): the phase, the elements of the instance that moves, its counter and flags, its port, and nothing of the other
instance; each with its obligation. -/

namespace Sys2Proof.Machine

/-! ### Phases -/

theorem Engine.inPhase_setPhase {v : Variant} (e : Engine v) (p : Phase) : (e.setPhase p).inPhase p = true :=
  Engine.inPhase_iff.2 rfl

/-- READ stays, goes on to PAD, or enters ERROR (R171). -/
theorem Engine.readAnswer_transition {v : Variant} (e : Engine v) (a : SrcAnswer) :
    ∃ q, (Phase.read, q) ∈ transitions ∧ (e.readAnswer a).inPhase q = true := by
  have herror (x : Cause) : (e.raise x).inPhase .error = true := Engine.inPhase_iff.2 rfl
  rcases e.readAnswer_cases a with ⟨_, _, h⟩ | ⟨_, _, _, h⟩ | ⟨_, h⟩ | ⟨_, _, _, _, _, _, h⟩ |
    ⟨d, hd, _, _, _, _, h⟩ <;> rw [h]
  · exact ⟨.error, by decide, herror _⟩
  · exact ⟨.error, by decide, herror _⟩
  · exact ⟨.pad, by decide, e.inPhase_setPhase .pad⟩
  · exact ⟨.error, by decide, herror _⟩
  · refine ⟨if e.CNT.val + d.length = v.B then .pad else .read, ?_, Engine.inPhase_iff.2 rfl⟩
    split <;> decide

/-- A micro-operation leaves its instance as it was or takes a row of the table (R171). -/
theorem execOfPhase_transition {s t : State} {p : Phase} {T : BitVec 7} (h : exec (Instr.ofPhase p T) s = .next t) :
    t.engine s.cur = s.engine s.cur ∨ ∃ q, (p, q) ∈ transitions ∧ (t.engine s.cur).inPhase q = true := by
  rcases execOfPhase_engine h with ⟨he, -⟩ | ⟨rfl, a, he⟩ | ⟨rfl, he⟩ | ⟨rfl, he⟩ | ⟨rfl, he⟩ | ⟨rfl, he⟩ | ⟨rfl, he⟩ |
    ⟨rfl, hT, he⟩ | ⟨rfl, he⟩ | ⟨rfl, he⟩ <;> rw [he]
  · exact .inl rfl
  · exact .inr (Engine.readAnswer_transition _ a)
  · exact .inr ⟨.read, by decide, Engine.inPhase_setPhase _ .read⟩
  · exact .inr ⟨.parse, by decide, Engine.inPhase_setPhase _ .parse⟩
  · exact .inr ⟨.expand, by decide, Engine.inPhase_setPhase _ .expand⟩
  · exact .inr ⟨.load, by decide, Engine.inPhase_setPhase _ .load⟩
  · exact .inr ⟨.round, by decide, Engine.inPhase_iff.2 rfl⟩
  · refine .inr ⟨if T.toNat + 1 = s.cur.N then .fold else .round, ?_, Engine.inPhase_iff.2 rfl⟩
    split <;> decide
  · refine .inr ⟨if (s.engine s.cur).TERMINAL = true then .emit else .clrbuf, ?_, Engine.inPhase_setPhase _ _⟩
    split <;> decide
  · exact .inr ⟨.done, by decide, Engine.inPhase_setPhase _ .done⟩

/-- An instance that holds is in one of the three hold phases (R84). -/
theorem Engine.mem_holdPhases {v : Variant} {e : Engine v} {p : Phase} (hp : e.SEQ.PHASE = p.code)
    (hh : e.holds = true) : p ∈ [Phase.idle, .done, .error] := by
  rw [Engine.holds_iff, hp] at hh
  simpa only [Phase.code_inj, List.mem_cons, List.not_mem_nil, or_false] using hh

/-- A command that is taken puts its instance in CLRBUF or in IDLE (R172, R173). -/
theorem exec_command_phase {s t : State} {v : Variant} {i : Instr} (hh : (s.engine v).holds = true)
    (hi : i = .start v ∨ i = .clear v) (h : exec i s = .next t) :
    (i = .start v ∧ (t.engine v).inPhase .clrbuf = true) ∨ (i = .clear v ∧ (t.engine v).inPhase .idle = true) := by
  obtain rfl | rfl := hi
  · cases (exec_start_of_holds hh).symm.trans h
    exact .inl ⟨rfl, by simp [Engine.inPhase_startStep]⟩
  · cases (exec_clear_of_holds hh).symm.trans h
    exact .inr ⟨rfl, by simp [Engine.inPhase_toIdle]⟩

/-- Settles O36: a command taken, an act of the host, or a micro-operation; the other instance is left as it was. -/
theorem phaseChangesFollowTheTransitionTable : Obligations.PhaseChangesFollowTheTransitionTable := by
  intro s t v p h hp
  rw [Engine.inPhase_iff] at hp
  rcases step_cases h with ⟨i, hi, hexec⟩ | ⟨-, -, rfl⟩ | ⟨u, i, hc, ha, -, -⟩
  · obtain ⟨_, u, -, -, -, hh, hiu⟩ := commandTaken_spec hi
    by_cases hv : v = u
    · subst hv
      have hhold := Engine.mem_holdPhases hp hh
      obtain ⟨rfl, hq⟩ | ⟨rfl, hq⟩ := exec_command_phase (by rwa [State.engine_setCmd]) hiu hexec
      · exact .inr (.inl ⟨hi, hhold, hq⟩)
      · exact .inr (.inr (.inl ⟨hi, hhold, hq⟩))
    · exact .inl ((exec_command_engine_ne hiu hv hexec).trans (State.engine_setCmd s v none))
  · by_cases hreset : s.host.head? = some .reset
    · have hidle : ((hostTurn (advance s)).engine v).inPhase .idle = true := by
        rw [hostTurn_engine_of_reset (s := advance s) hreset]
        exact Engine.inPhase_toIdle _ _
      exact .inr (.inr (.inr (.inl ⟨hreset, hidle⟩)))
    · exact .inl ((hostTurn_engine (s := advance s) hreset v).trans (advance_engine s v))
  · obtain ⟨p', hp', hexec⟩ := step_runs_phase hc ha h
    by_cases hv : v = u
    · subst hv
      obtain rfl := Phase.code_inj.1 (hp.symm.trans hp')
      obtain hstay | hmove := execOfPhase_transition hexec
      · exact .inl (hstay.trans (select_engine s v v))
      · exact .inr (.inr (.inr (.inr hmove)))
    · obtain ⟨hothers, -⟩ := execOfPhase_frame hexec
      exact .inl ((hothers v hv).1.trans (select_engine s v u))

/-! ### Elements -/

section
variable {v : Variant} {e e' : Engine v}

theorem Engine.SameExcept.mono {fs gs : List Field} (h : e.SameExcept fs e') (hsub : fs ⊆ gs) : e.SameExcept gs e' :=
  fun f hf => h f fun hmem => hf (hsub hmem)

/-- An element that a step writes only in phases that are its writers (R20 to R37). -/
theorem Engine.SameExcept.sameField {fs : List Field} {p : Phase} {f : Field} (h : e.SameExcept fs e')
    (hfs : ∀ g ∈ fs, p ∈ writers g) (hf : p ∉ writers f) : e.SameField e' f :=
  h f fun hmem => hf (hfs f hmem)

theorem Engine.readAnswer_sameExcept (e : Engine v) (a : SrcAnswer) :
    e.SameExcept [.SEQ, .BUF, .CNT, .BC, .CAUSE, .ERRKIND] (e.readAnswer a) := by
  rcases e.readAnswer_cases a with ⟨_, _, h⟩ | ⟨_, _, _, h⟩ | ⟨_, h⟩ | ⟨_, _, _, _, _, _, h⟩ |
    ⟨d, hd, _, _, _, _, h⟩ <;> rw [h]
  · exact (e.raise_sameExcept _).mono (by decide)
  · exact (e.raise_sameExcept _).mono (by decide)
  · exact (e.setPhase_sameExcept _).mono (by decide)
  · exact (e.raise_sameExcept _).mono (by decide)
  · exact (e.takeBytes_sameExcept d hd).mono (by decide)

end

/-- Each micro-operation writes no element but those it is a writer of. -/
theorem execOfPhase_sameField {s t : State} {p : Phase} {T : BitVec 7} {f : Field}
    (h : exec (Instr.ofPhase p T) s = .next t) (hf : p ∉ writers f) :
    (s.engine s.cur).SameField (t.engine s.cur) f := by
  rcases execOfPhase_engine h with ⟨he, -⟩ | ⟨rfl, a, he⟩ | ⟨rfl, he⟩ | ⟨rfl, he⟩ | ⟨rfl, he⟩ | ⟨rfl, he⟩ | ⟨rfl, he⟩ |
    ⟨rfl, hT, he⟩ | ⟨rfl, he⟩ | ⟨rfl, he⟩ <;> rw [he]
  · exact Engine.SameExcept.refl _ [] f List.not_mem_nil
  · exact (Engine.readAnswer_sameExcept _ a).sameField (by decide) hf
  · exact (Engine.clrbufStep_sameExcept _).sameField (by decide) hf
  · exact (Engine.padStep_sameExcept _).sameField (by decide) hf
  · exact (Engine.parseStep_sameExcept _).sameField (by decide) hf
  · exact (Engine.expandStep_sameExcept _).sameField (by decide) hf
  · exact (Engine.loadStep_sameExcept _).sameField (by decide) hf
  · exact (Engine.roundStep_sameExcept _ _ hT).sameField (by decide) hf
  · exact (Engine.foldStep_sameExcept _).sameField (by decide) hf
  · exact (Engine.emitStep_sameExcept _).sameField (by decide) hf

/-- Settles O37: the micro-operation is that of the phase, and its instance is the one that moves. -/
theorem elementsChangeOnlyByTheirWriters : Obligations.ElementsChangeOnlyByTheirWriters := by
  intro s t v p f hc ha hp h hf
  obtain ⟨p', hp', hexec⟩ := step_runs_phase hc ha h
  obtain rfl := Phase.code_inj.1 ((Engine.inPhase_iff.1 hp).symm.trans hp')
  have hsame := execOfPhase_sameField hexec hf
  simp only [select_cur, select_engine] at hsame
  exact hsame

/-! ### The counter and the flags -/

/-- READ raises BC by the bytes it takes (R135). -/
theorem Engine.readAnswer_BC_le {v : Variant} (e : Engine v) (a : SrcAnswer) :
    e.BC.toNat ≤ (e.readAnswer a).BC.toNat := by
  rcases e.readAnswer_cases a with ⟨_, _, h⟩ | ⟨_, _, _, h⟩ | ⟨_, h⟩ | ⟨_, _, _, _, _, _, h⟩ |
    ⟨d, hd, _, _, _, hb, h⟩ <;> rw [h]
  case inr.inr.inr.inr =>
    rw [Engine.takeBytes_BC, counter_add hb]
    exact Nat.le_add_right _ _
  all_goals exact Nat.le_refl _

section
variable {s t : State} {p : Phase} {T : BitVec 7} (h : exec (Instr.ofPhase p T) s = .next t)
include h

/-- Only READ writes BC (R33), and it raises it. -/
theorem execOfPhase_BC_le : (s.engine s.cur).BC.toNat ≤ (t.engine s.cur).BC.toNat := by
  by_cases hread : p = .read
  · subst hread
    rcases execOfPhase_engine h with ⟨he, -⟩ | ⟨-, a, he⟩ | hother
    · exact he ▸ Nat.le_refl _
    · exact he ▸ Engine.readAnswer_BC_le _ a
    · simp at hother
  · have hBC : (t.engine s.cur).BC = (s.engine s.cur).BC :=
      execOfPhase_sameField (f := .BC) h (by simpa [writers] using hread)
    rw [hBC]

/-- Only PAD writes the flags (R32), and it sets them. -/
theorem execOfPhase_flags : ((s.engine s.cur).PADDED = true → (t.engine s.cur).PADDED = true) ∧
    ((s.engine s.cur).TERMINAL = true → (t.engine s.cur).TERMINAL = true) := by
  by_cases hpad : p = .pad
  · subst hpad
    cases h
    rw [onCur_engine_cur, Engine.padStep_PADDED, Engine.padStep_TERMINAL]
    exact ⟨fun hset => by rw [hset, Bool.true_or], fun hset => by rw [hset, Bool.true_or]⟩
  · have hPADDED : (t.engine s.cur).PADDED = (s.engine s.cur).PADDED :=
      execOfPhase_sameField (f := .PADDED) h (by simpa [writers] using hpad)
    have hTERMINAL : (t.engine s.cur).TERMINAL = (s.engine s.cur).TERMINAL :=
      execOfPhase_sameField (f := .TERMINAL) h (by simpa [writers] using hpad)
    rw [hPADDED, hTERMINAL]
    exact ⟨id, id⟩

end

/-- Settles O38: in the instance that moves BC and the flags go up only, and nothing of the other is written. -/
theorem counterAndFlagsNeverGoBack : Obligations.CounterAndFlagsNeverGoBack := by
  intro s t v u hc ha h
  obtain ⟨p, -, hexec⟩ := step_runs_phase hc ha h
  by_cases hu : u = v
  · subst hu
    have hBC := execOfPhase_BC_le hexec
    have hflags := execOfPhase_flags hexec
    simp only [select_cur, select_engine] at hBC hflags
    exact ⟨hBC, hflags⟩
  · obtain ⟨hothers, -⟩ := execOfPhase_frame hexec
    rw [(hothers u hu).1, select_engine]
    exact ⟨Nat.le_refl _, id, id⟩

/-! ### Ports -/

/-- Settles O39: READ alone asks, for the room the invariant leaves it. -/
theorem onlyReadAsksTheSource : Obligations.OnlyReadAsksTheSource := by
  intro s t v hi hc ha h
  obtain ⟨p, hp, hexec⟩ := step_runs_phase hc ha h
  obtain ⟨-, -, -, -, -, -, -, hport⟩ := execOfPhase_frame hexec
  simp only [select_cur, select_port, select_engine] at hport
  obtain hsame | ⟨rfl, hrequests⟩ := hport
  · exact .inl hsame
  · have hread : (s.engine v).inPhase .read = true := Engine.inPhase_iff.2 hp
    have hroom := hi.read_room hread
    exact .inr ⟨hread, hrequests, by omega, Nat.sub_le _ _⟩

/-! ### The other instance -/

/-- Settles O40: the frame of a sequencer instruction. -/
theorem instancesDoNotInterfere : Obligations.InstancesDoNotInterfere := by
  intro s t v u hc ha h hu
  obtain ⟨p, hp, hexec⟩ := step_runs_phase hc ha h
  obtain ⟨hothers, hcmd, hhost, hlog, -⟩ := execOfPhase_frame hexec
  obtain ⟨hengine, hport⟩ := hothers u hu
  exact ⟨hengine.trans (select_engine s u v), hport.trans (select_port s u v), hcmd, hhost, hlog⟩

end Sys2Proof.Machine
end

