-- ==== Sys2Proof/Proofs/Sources.lean ====
section
/-! PROOF. The sources that hold a stream (spec/20_memory.md R57): what such a source answers to one request, what it
has returned after several, then the obligation. -/

namespace Sys2Proof.Machine

/-- A chunk limit lets at least one byte of a request through if every chunk does, and never more than asked. -/
theorem chunkLimit_bounds {chunks : List Nat} {n : Nat} (hchunks : ∀ c ∈ chunks, 1 ≤ c) (hn : 1 ≤ n) :
    1 ≤ chunkLimit chunks n ∧ chunkLimit chunks n ≤ n := by
  cases chunks with
  | nil => exact ⟨hn, Nat.le_refl n⟩
  | cons c cs => exact ⟨Nat.le_min.2 ⟨hn, hchunks c List.mem_cons_self⟩, Nat.min_le_left n c⟩

/-- Everything a source of a stream does with a request: it errs as it was set to and gives nothing, or it gives some of
the next bytes, at most as many as asked and at least one (R57, R89). -/
theorem Source.answer_stream_cases {rest : List Byte} {chunks : List Nat} {n : Nat} (errs : List (Nat × BitVec 8))
    (asked : Nat) (hchunks : ∀ c ∈ chunks, 1 ≤ c) (hn : 1 ≤ n) :
    (∃ kind, errs.lookup asked = some kind ∧ (Source.stream rest chunks errs asked).answer n =
      some (.err kind, .stream rest chunks.tail errs (asked + 1))) ∨
    (∃ m, 1 ≤ m ∧ m ≤ n ∧ (Source.stream rest chunks errs asked).answer n =
      some (.data (rest.take m), .stream (rest.drop m) chunks.tail errs (asked + 1))) := by
  cases herr : errs.lookup asked with
  | some kind => exact .inl ⟨kind, rfl, by simp only [Source.answer, herr]⟩
  | none =>
    obtain ⟨hpos, hle⟩ := chunkLimit_bounds hchunks hn
    exact .inr ⟨chunkLimit chunks n, hpos, hle, by simp only [Source.answer, herr]⟩

/-- In terms of the bytes alone: what is given comes off the front of the stream, and nothing is given as data only at
its end. -/
theorem Source.answer_stream {rest : List Byte} {chunks : List Nat} {n : Nat} (errs : List (Nat × BitVec 8))
    (asked : Nat) (hchunks : ∀ c ∈ chunks, 1 ≤ c) (hn : 1 ≤ n) :
    ∃ a rest', (Source.stream rest chunks errs asked).answer n = some (a, .stream rest' chunks.tail errs (asked + 1)) ∧
      a.bytes ++ rest' = rest ∧ a.bytes.length ≤ n ∧ (a = .data [] → rest = []) := by
  obtain ⟨kind, -, hans⟩ | ⟨m, hpos, hle, hans⟩ := Source.answer_stream_cases (rest := rest) errs asked hchunks hn
  · exact ⟨_, _, hans, rfl, Nat.zero_le n, nofun⟩
  · refine ⟨_, _, hans, List.take_append_drop m rest, (List.length_take_le m rest).trans hle, fun hempty => ?_⟩
    have htake : rest.take m = [] := SrcAnswer.data.inj hempty
    exact (List.take_eq_nil_iff.1 htake).resolve_left (Nat.ne_of_gt hpos)

theorem forall_mem_tail {chunks : List Nat} (hchunks : ∀ c ∈ chunks, 1 ≤ c) : ∀ c ∈ chunks.tail, 1 ≤ c :=
  fun c hc => hchunks c (List.mem_of_mem_tail hc)

section
variable {rest : List Byte} {chunks : List Nat} (errs : List (Nat × BitVec 8)) {asked : Nat} {reqs : List Nat}
  (hchunks : ∀ c ∈ chunks, 1 ≤ c) (hreqs : ∀ r ∈ reqs, 1 ≤ r)
include hchunks hreqs

/-- What a source has returned is the front of its stream (R57). -/
theorem Source.answers_prefix :
    ((Source.stream rest chunks errs asked).answers reqs).flatMap SrcAnswer.bytes <+: rest := by
  induction reqs generalizing rest chunks asked with
  | nil => exact List.nil_prefix
  | cons r reqs ih =>
    obtain ⟨hr, hreqs⟩ := List.forall_mem_cons.1 hreqs
    obtain ⟨a, rest', hans, rfl, -, -⟩ := Source.answer_stream (rest := rest) errs asked hchunks hr
    simp only [Source.answers, hans, List.flatMap_cons]
    exact (List.prefix_append_right_inj _).2 (ih (forall_mem_tail hchunks) hreqs)

/-- When a source has told the end, it has returned its whole stream (R57). -/
theorem Source.answers_end (hend : .data [] ∈ (Source.stream rest chunks errs asked).answers reqs) :
    ((Source.stream rest chunks errs asked).answers reqs).flatMap SrcAnswer.bytes = rest := by
  induction reqs generalizing rest chunks asked with
  | nil => exact absurd hend List.not_mem_nil
  | cons r reqs ih =>
    obtain ⟨hr, hreqs'⟩ := List.forall_mem_cons.1 hreqs
    obtain ⟨a, rest', hans, hsplit, -, hempty⟩ := Source.answer_stream (rest := rest) errs asked hchunks hr
    obtain rfl | hne := eq_or_ne a (.data [])
    · have hall := Source.answers_prefix (rest := rest) (asked := asked) errs hchunks hreqs
      rw [hempty rfl] at hall ⊢
      exact List.prefix_nil.1 hall
    · simp only [Source.answers, hans, List.mem_cons, Ne.symm hne, false_or] at hend
      simp only [Source.answers, hans, List.flatMap_cons, ih (forall_mem_tail hchunks) hreqs' hend, hsplit]

/-- The last answer keeps to its request (R57). -/
theorem Source.answers_last_length {n : Nat} {a : SrcAnswer} (hn : 1 ≤ n)
    (ha : (Source.stream rest chunks errs asked).answers (reqs ++ [n]) =
      (Source.stream rest chunks errs asked).answers reqs ++ [a]) : a.bytes.length ≤ n := by
  induction reqs generalizing rest chunks asked with
  | nil =>
    obtain ⟨b, rest', hans, -, hlen, -⟩ := Source.answer_stream (rest := rest) errs asked hchunks hn
    simp only [List.nil_append, Source.answers, hans, List.cons.injEq, and_true] at ha
    exact ha ▸ hlen
  | cons r reqs ih =>
    obtain ⟨hr, hreqs⟩ := List.forall_mem_cons.1 hreqs
    obtain ⟨b, rest', hans, -, -, -⟩ := Source.answer_stream (rest := rest) errs asked hchunks hr
    simp only [List.cons_append, Source.answers, hans, List.cons.injEq, true_and] at ha
    exact ih (forall_mem_tail hchunks) hreqs ha

end

/-- Settles O45: the returned bytes are the front of the stream, and once they are all of it nothing is left for a further
answer. -/
theorem streamSourceMeetsTheContract : Obligations.StreamSourceMeetsTheContract := by
  intro str src reqs n hholds hreqs hn
  cases src with
  | script answers => exact hholds.elim
  | stream rest chunks errs asked =>
    obtain ⟨rfl, hchunks⟩ := hholds
    have hreqs' : ∀ r ∈ reqs ++ [n], 1 ≤ r := List.forall_mem_append.2 ⟨hreqs, List.forall_mem_singleton.2 hn⟩
    refine ⟨Source.answers_prefix errs hchunks hreqs,
      fun a ha => ⟨Source.answers_last_length errs hchunks hreqs hn ha, ?_, ?_⟩⟩
    · rintro rfl
      have hall := Source.answers_end (asked := asked) (rest := rest) errs hchunks hreqs' (by simp [ha])
      simpa [ha, SrcAnswer.bytes] using hall
    · intro hend
      have hprefix := Source.answers_prefix (asked := asked) (rest := rest) errs hchunks hreqs'
      have hall := Source.answers_end errs hchunks hreqs hend
      rw [ha, List.flatMap_append, hall, List.flatMap_singleton] at hprefix
      simpa using hprefix.length_le

end Sys2Proof.Machine
end

