-- ==== Sys2Proof/Proofs/Padding.lean ====
section
/-! PROOF. The padded message of the reference (spec/42_block_assembler.md R131, R139; spec/45_digest_driver.md R179):
its length, its bytes and its blocks, then the obligation. -/

namespace Sys2Proof.Machine

variable (v : Variant) (str : List Byte)

/-! ### The length -/

/-- The zeros fill the last block, which is the one after the stream's whole blocks if marker and length field fit in it
(R131, R139). -/
theorem length_add_padZeros (len : Nat) : len + 1 + padZeros v len + v.LB = v.B * blockCount v len := by
  cases v <;> simp only [padZeros, blockCount, Variant.B, Variant.LB] <;> split <;> omega

theorem padZeros_lt (len : Nat) : padZeros v len < v.B :=
  Nat.mod_lt _ v.B_pos

theorem padMessage_length_eq_sum : (padMessage v str).length = str.length + 1 + padZeros v str.length + v.LB := by
  simp only [padMessage, List.length_append, List.length_singleton, List.length_replicate, beBytes_length]

theorem padMessage_length : (padMessage v str).length = v.B * blockCount v str.length := by
  rw [padMessage_length_eq_sum, length_add_padZeros]

/-- The blocks are the fewest that hold the stream, the marker and the length field (R139). -/
theorem blockCount_le_iff {len m : Nat} : blockCount v len ≤ m ↔ len + 1 + v.LB ≤ v.B * m := by
  cases v <;> simp only [blockCount, Variant.B, Variant.LB] <;> split <;> omega

/-! ### The bytes -/

section
variable {v str} {i : Nat}

theorem getElem?_padMessage_stream (h : i < str.length) : (padMessage v str)[i]? = some str[i] := by
  simp only [padMessage, List.append_assoc]
  rw [List.getElem?_append_left h, List.getElem?_eq_getElem h]

theorem getElem?_padMessage_marker : (padMessage v str)[str.length]? = some 0x80#8 := by
  simp [padMessage, List.append_assoc]

theorem getElem?_padMessage_zero (hlow : str.length < i) (hhigh : i < (padMessage v str).length - v.LB) :
    (padMessage v str)[i]? = some 0x00#8 := by
  rw [padMessage_length_eq_sum] at hhigh
  rw [padMessage, List.getElem?_append_left (by simp; omega), List.getElem?_append_right (by simp; omega),
    List.getElem?_replicate, if_pos (by simp; omega)]

end

theorem drop_padMessage :
    (padMessage v str).drop ((padMessage v str).length - v.LB) = beBytes v.LB (str.length * 8) := by
  have hlen : (padMessage v str).length - v.LB =
      (str ++ [0x80#8] ++ List.replicate (padZeros v str.length) 0x00#8).length := by
    rw [padMessage_length_eq_sum]
    simp
    omega
  rw [hlen, padMessage, List.drop_left]

/-! ### The blocks -/

/-- A list whose length is a multiple of the piece size is its pieces put together again. -/
theorem flatten_pieces {α : Type} (size : Nat) (l : List α) (h : size * (l.length / size) = l.length) :
    (List.ofFn fun k : Fin (l.length / size) => List.ofFn fun j : Fin size =>
      l[size * k.val + j.val]'(block_byte_lt k.isLt j.isLt)).flatten = l := by
  have hjoin := List.ofFn_mul' fun i : Fin (size * (l.length / size)) => l[i.val]'(i.isLt.trans_eq h)
  refine hjoin.symm.trans (List.ext_getElem (by rw [List.length_ofFn, h]) fun i _ _ => ?_)
  rw [List.getElem_ofFn]

theorem messageBlocks_length : (messageBlocks v str).length = blockCount v str.length := by
  rw [messageBlocks, List.length_ofFn, padMessage_length, Nat.mul_div_cancel_left _ v.B_pos]

theorem flatMap_messageBlocks : (messageBlocks v str).flatMap Vector.toList = padMessage v str := by
  have hdvd : v.B * ((padMessage v str).length / v.B) = (padMessage v str).length := by
    rw [padMessage_length, Nat.mul_div_cancel_left _ v.B_pos]
  rw [messageBlocks, List.flatMap_def, List.map_ofFn]
  simpa only [Function.comp_def, Vector.toList_ofFn] using flatten_pieces v.B (padMessage v str) hdvd

/-- Settles O46: the length is the sum of the parts, the parts stand at their places, and the blocks are consecutive. -/
theorem paddedMessageIsWholeBlocks : Obligations.PaddedMessageIsWholeBlocks := by
  intro v str
  refine ⟨padMessage_length v str, padZeros_lt v _, ?_, getElem?_padMessage_marker,
    fun i hlow hhigh => getElem?_padMessage_zero hlow hhigh, padMessage_length_eq_sum v str, drop_padMessage v str,
    messageBlocks_length v str, fun b _ => b.length_toList, flatMap_messageBlocks v str⟩
  rw [padMessage, List.append_assoc, List.append_assoc, List.take_left]

end Sys2Proof.Machine
end

