-- ==== Sys2Proof/Proofs/SoloRun.lean ====
section
/-! PROOF. An instance that moves alone: its steps in a row, as steps of the instance and its port, and the rounds of a
block (spec/44_round_function.md R162), then the obligation. -/

namespace Sys2Proof.Machine

/-! ### Steps in a row -/

/-- `n` steps of an instance and its port, one after the other. -/
inductive Ticks {v : Variant} : Nat → Engine v × SrcPort → Engine v × SrcPort → Prop where
  | refl (x : Engine v × SrcPort) : Ticks 0 x x
  | cons {n : Nat} {x y z : Engine v × SrcPort} (h : x.1.tick x.2 = .ok y) (hs : Ticks n y z) : Ticks (n + 1) x z

section
variable {v : Variant} {x y z : Engine v × SrcPort} {m n : Nat}

theorem Ticks.single (h : x.1.tick x.2 = .ok y) : Ticks 1 x y := .cons h (.refl y)

theorem Ticks.trans (hm : Ticks m x y) (hn : Ticks n y z) : Ticks (m + n) x z := by
  induction hm with
  | refl => rwa [Nat.zero_add]
  | cons h _ ih =>
    rw [Nat.succ_add]
    exact .cons h (ih hn)

/-- An instance that is scheduled alone, with nothing on port CMD, makes its steps in a row, and the other instance
none. -/
theorem Ticks.run (h : Ticks n x y) {s : State} (hengine : s.engine v = x.1) (hport : s.port v = x.2)
    (hcmd : s.cmd = none) (hschedule : s.schedule = List.replicate n (.engine v)) :
    ∃ t, Host.Core.run Sys2Proof.core n s = .next t ∧ t.engine v = y.1 ∧ t.port v = y.2 ∧
      ∀ u, u ≠ v → t.engine u = s.engine u := by
  induction h generalizing s with
  | refl x => exact ⟨s, rfl, hengine, hport, fun _ _ => rfl⟩
  | @cons n x y z htick _ ih =>
    have hstep : step s = .next (((select s v).setPort v y.2).setEngine v y.1) :=
      step_of_tick_ok (commandTaken_of_no_cmd hcmd) (by rw [nextAgent, hschedule]; rfl) (by rw [hengine, hport, htick])
    obtain ⟨t, hrun, hengine', hport', hothers⟩ := ih (s := ((select s v).setPort v y.2).setEngine v y.1)
      (by simp) (by simp) (by simp [hcmd]) (by simp [hschedule])
    refine ⟨t, (run_next hstep n).trans hrun, hengine', hport', fun u hu => ?_⟩
    rw [hothers u hu, State.engine_setEngine_ne _ _ _ hu, State.engine_setPort, select_engine]

end

/-! ### The step of each phase -/

section
variable {v : Variant} {e : Engine v} {q : SrcPort}

theorem Engine.tick_clrbuf (hp : e.SEQ.PHASE = Phase.clrbuf.code) : e.tick q = .ok (e.clrbufStep, q) := by
  simp only [Engine.tick, hp, Phase.ofCode_code]

theorem Engine.tick_read (hp : e.SEQ.PHASE = Phase.read.code) {a : SrcAnswer} {src : Source}
    (h : q.source.answer e.requestSize = some (a, src)) :
    e.tick q = .ok (e.readAnswer a, ⟨src, q.requests ++ [e.requestSize]⟩) := by
  simp only [Engine.tick, hp, Phase.ofCode_code, h]

theorem Engine.tick_pad (hp : e.SEQ.PHASE = Phase.pad.code) : e.tick q = .ok (e.padStep, q) := by
  simp only [Engine.tick, hp, Phase.ofCode_code]

theorem Engine.tick_parse (hp : e.SEQ.PHASE = Phase.parse.code) : e.tick q = .ok (e.parseStep, q) := by
  simp only [Engine.tick, hp, Phase.ofCode_code]

theorem Engine.tick_expand (hp : e.SEQ.PHASE = Phase.expand.code) : e.tick q = .ok (e.expandStep, q) := by
  simp only [Engine.tick, hp, Phase.ofCode_code]

theorem Engine.tick_load (hp : e.SEQ.PHASE = Phase.load.code) : e.tick q = .ok (e.loadStep, q) := by
  simp only [Engine.tick, hp, Phase.ofCode_code]

theorem Engine.tick_round (hp : e.SEQ.PHASE = Phase.round.code) (hT : e.SEQ.T.toNat < v.N) :
    e.tick q = .ok (e.roundStep e.SEQ.T hT, q) := by
  simp only [Engine.tick, hp, Phase.ofCode_code, dif_pos hT]

theorem Engine.tick_fold (hp : e.SEQ.PHASE = Phase.fold.code) : e.tick q = .ok (e.foldStep, q) := by
  simp only [Engine.tick, hp, Phase.ofCode_code]

theorem Engine.tick_emit (hp : e.SEQ.PHASE = Phase.emit.code) : e.tick q = .ok (e.emitStep, q) := by
  simp only [Engine.tick, hp, Phase.ofCode_code]

end

/-! ### The rounds of a block -/

/-- An instance after LOAD and `k` ROUND steps (R160, R162). -/
def Engine.afterRounds {v : Variant} (e : Engine v) (k : Nat) (hk : k ≤ v.N) : Engine v :=
  { e with
    R := roundsTo v e.WS e.H k hk
    SEQ := ⟨(if k = v.N then Phase.fold else Phase.round).code, BitVec.ofNat 7 k⟩ }

section
variable {v : Variant} (e : Engine v)

theorem toNat_index {k : Nat} (hk : k ≤ v.N) : (BitVec.ofNat 7 k).toNat = k := by
  have hN := v.N_le
  rw [BitVec.toNat_ofNat, Nat.mod_eq_of_lt (by omega)]

theorem Engine.loadStep_eq_afterRounds : e.loadStep = e.afterRounds 0 (Nat.zero_le _) := by
  rw [Engine.afterRounds, if_neg v.N_pos.ne]
  rfl

/-- The round with index `k` uses `K[k]` and `WS[k]`, as the reference's next round does. -/
theorem Engine.roundStep_afterRounds {k : Nat} (hk : k < v.N) (hT : (BitVec.ofNat 7 k).toNat < v.N) :
    (e.afterRounds k hk.le).roundStep (BitVec.ofNat 7 k) hT = e.afterRounds (k + 1) hk := by
  have hindex := toNat_index hk.le
  simp only [Engine.afterRounds, Engine.roundStep, roundConstant, Engine.scheduleWord, roundsTo, hindex,
    BitVec.ofNat_add]

theorem Engine.ticks_rounds (q : SrcPort) (hp : e.SEQ.PHASE = Phase.load.code) {k : Nat} (hk : k ≤ v.N) :
    Ticks (k + 1) (e, q) (e.afterRounds k hk, q) := by
  induction k with
  | zero => exact .single (by rw [Engine.tick_load hp, e.loadStep_eq_afterRounds])
  | succ k ih =>
    have hlt : k < v.N := hk
    have hT : (e.afterRounds k hlt.le).SEQ.T.toNat < v.N := (toNat_index hlt.le).trans_lt hlt
    have hround : (e.afterRounds k hlt.le).SEQ.PHASE = Phase.round.code := by rw [Engine.afterRounds, if_neg hlt.ne]
    refine (ih hlt.le).trans (.single ?_)
    rw [Engine.tick_round hround hT]
    exact congrArg (fun e' => Except.ok (e', q)) (e.roundStep_afterRounds hlt hT)

theorem Engine.afterRounds_sameExcept {k : Nat} (hk : k ≤ v.N) : e.SameExcept [.SEQ, .R] (e.afterRounds k hk) :=
  Engine.sameExcept_iff.2 (by simp [Engine.afterRounds])

end

/-- Settles O20: the steps in a row of an instance that starts in LOAD are those of `afterRounds`. -/
theorem roundLoopComputesTheRounds : Obligations.RoundLoopComputesTheRounds := by
  intro s v k hk hcmd hload
  have hticks := (s.engine v).ticks_rounds (s.port v) (Engine.inPhase_iff.1 hload) hk
  obtain ⟨t, hrun, hengine, -⟩ := hticks.run (s := { s with schedule := List.replicate (k + 1) (.engine v) })
    (by cases v <;> rfl) (by cases v <;> rfl) hcmd rfl
  refine ⟨t, hrun, ?_⟩
  rw [hengine]
  refine ⟨rfl, toNat_index hk, fun hlast => ?_, fun hmore => ?_, (s.engine v).afterRounds_sameExcept hk⟩
  · rw [Engine.inPhase_iff, Engine.afterRounds, if_pos hlast]
  · rw [Engine.inPhase_iff, Engine.afterRounds, if_neg hmore]

end Sys2Proof.Machine
end

