-- ==== Sys2Proof/Proofs/BlockFetch.lean ====
section
/-! PROOF. The fetch of a block from a source that holds a stream (spec/42_block_assembler.md R135, R137): what is known of
an instance part of the way through its stream, that each READ keeps it, and that the READs of a block end in PAD, or in
ERROR where the source errs. -/

namespace Sys2Proof.Machine

/-! ### An instance part of the way through its stream -/

/-- The Hash State of the reference after the first `k` blocks of a stream (R179). -/
def hashAfter (v : Variant) (str : List Byte) (k : Nat) : Vector (BitVec v.W) 8 :=
  ((messageBlocks v str).take k).foldl (compress v) (H0 v)

/-- The source will give the bytes `rest`, but for errors it is set to from its request number `asked` on. -/
def Source.Gives (errs : List (Nat × BitVec 8)) (asked : Nat) (rest : List Byte) (src : Source) : Prop :=
  ∃ chunks asked', src = .stream rest chunks errs asked' ∧ (∀ c ∈ chunks, 1 ≤ c) ∧ asked ≤ asked'

/-- The instance has failed with a kind its source was set to give (R191). -/
def Engine.Failed {v : Variant} (errs : List (Nat × BitVec 8)) (asked : Nat) (e : Engine v) : Prop :=
  e.SEQ.PHASE = Phase.error.code ∧ e.CAUSE = 1#2 ∧ ∃ i, asked ≤ i ∧ errs.lookup i = some e.ERRKIND

/-- The instance has folded `k` blocks of the padded stream, none of them the last, and its source is at `pos`. -/
structure Consumed {v : Variant} (str : List Byte) (errs : List (Nat × BitVec 8)) (asked k pos : Nat) (e : Engine v)
    (q : SrcPort) : Prop where
  hash : e.H = hashAfter v str k
  counter : e.BC.toNat = min pos str.length
  padded : e.PADDED = decide (str.length < v.B * k)
  terminal : e.TERMINAL = false
  source : q.source.Gives errs asked (str.drop pos)

/-- The instance has the first `CNT` stream bytes of block `k` in its Block Buffer, and zeros after them. -/
structure Fetched {v : Variant} (str : List Byte) (errs : List (Nat × BitVec 8)) (asked k : Nat) (e : Engine v)
    (q : SrcPort) : Prop extends Consumed str errs asked k (v.B * k + e.CNT.val) e q where
  buf_wf : Memory.wf v.B e.BUF = true
  cnt_le : e.CNT.val ≤ str.length - v.B * k
  buf : ∀ a, Memory.read e.BUF a = if a < e.CNT.val then str.getD (v.B * k + a) 0#8 else 0#8

/-- A READ has completed the block's share of the stream, or has taken bytes and left room for more. -/
def Advanced {v : Variant} (str : List Byte) (k : Nat) (e e' : Engine v) : Prop :=
  (e'.SEQ.PHASE = Phase.pad.code ∧ e'.CNT.val = min v.B (str.length - v.B * k)) ∨
    (e'.SEQ.PHASE = Phase.read.code ∧ e.CNT.val < e'.CNT.val ∧ e'.CNT.val < v.B)

/-! ### One READ -/

/-- A source that gives a stream answers every request: it errs as it was set to, or it gives the next bytes, none only
at the end of the stream. -/
theorem Source.Gives.answer {errs : List (Nat × BitVec 8)} {asked n : Nat} {rest : List Byte} {src : Source}
    (hg : src.Gives errs asked rest) (hn : 1 ≤ n) :
    ∃ a src', src.answer n = some (a, src') ∧ ((∃ kind i, a = .err kind ∧ asked ≤ i ∧ errs.lookup i = some kind) ∨
      ∃ d, a = .data d ∧ d <+: rest ∧ d.length ≤ n ∧ (d = [] → rest = []) ∧
        src'.Gives errs asked (rest.drop d.length)) := by
  obtain ⟨chunks, asked', rfl, hchunks, hasked⟩ := hg
  obtain ⟨kind, hkind, hans⟩ | ⟨m, hm, hle, hans⟩ := Source.answer_stream_cases (rest := rest) errs asked' hchunks hn
  · exact ⟨_, _, hans, .inl ⟨kind, asked', rfl, hasked, hkind⟩⟩
  · refine ⟨_, _, hans, .inr ⟨_, rfl, List.take_prefix m rest, (List.length_take_le m rest).trans hle, fun hempty => ?_,
      chunks.tail, asked' + 1, ?_, forall_mem_tail hchunks, Nat.le_succ_of_le hasked⟩⟩
    · exact (List.take_eq_nil_iff.1 hempty).resolve_left (Nat.ne_of_gt hm)
    · have hdrop : (rest.take m ++ rest.drop m).drop (rest.take m).length = rest.drop m := List.drop_left
      rw [← hdrop, List.take_append_drop]

section
variable {v : Variant} {e : Engine v}

theorem Engine.takeBytes_CNT_val (e : Engine v) {d : List Byte} (h : e.CNT.val + d.length ≤ v.B) :
    (e.takeBytes d h).CNT.val = e.CNT.val + d.length := rfl

theorem Engine.readAnswer_end : e.readAnswer (.data []) = e.setPhase .pad := by
  simp [Engine.readAnswer]

/-- An answer that passes the checks of R135 is taken. -/
theorem Engine.readAnswer_take {d : List Byte} (h : e.CNT.val + d.length ≤ v.B) (hpos : 0 < d.length)
    (hpad : e.PADDED = false) (hb : e.BC.toNat + d.length < 2 ^ (v.BCW - 3)) :
    e.readAnswer (.data d) = e.takeBytes d h := by
  have hroom : ¬ e.requestSize < d.length := by
    rw [Engine.requestSize]
    omega
  simp only [Engine.readAnswer, dif_neg hroom, hpad, Bool.false_eq_true, and_false, if_false, if_neg hpos.ne',
    if_neg (Nat.not_le.2 hb)]

end

section
variable {v : Variant} {str : List Byte} {errs : List (Nat × BitVec 8)} {asked k : Nat} {e : Engine v} {q : SrcPort}

/-- CLRBUF starts the fetch of the next block. -/
theorem Consumed.clrbufStep (hc : Consumed str errs asked k (v.B * k) e q) :
    Fetched str errs asked k e.clrbufStep q where
  hash := hc.hash
  counter := hc.counter
  padded := hc.padded
  terminal := hc.terminal
  source := hc.source
  buf_wf := rfl
  cnt_le := Nat.zero_le _
  buf a := by simp

/-- The end of the stream leaves everything but the phase and what the source has left to say. -/
theorem Fetched.readEnd (hf : Fetched str errs asked k e q) {src : Source} {rs : List Nat}
    (hsrc : src.Gives errs asked (str.drop (v.B * k + e.CNT.val))) :
    Fetched str errs asked k (e.setPhase .pad) ⟨src, rs⟩ where
  hash := hf.hash
  counter := hf.counter
  padded := hf.padded
  terminal := hf.terminal
  source := hsrc
  buf_wf := hf.buf_wf
  cnt_le := hf.cnt_le
  buf := hf.buf

/-- The bytes of an answer go on where the fetched ones end. -/
theorem Fetched.takeBytes (hf : Fetched str errs asked k e q) {d : List Byte} (h : e.CNT.val + d.length ≤ v.B)
    (hd : d <+: str.drop (v.B * k + e.CNT.val)) (hpos : 0 < d.length) (hb : e.BC.toNat + d.length < 2 ^ (v.BCW - 3))
    {src : Source} {rs : List Nat} (hsrc : src.Gives errs asked (str.drop (v.B * k + (e.CNT.val + d.length)))) :
    Fetched str errs asked k (e.takeBytes d h) ⟨src, rs⟩ := by
  have hroom : d.length ≤ str.length - (v.B * k + e.CNT.val) := by simpa using hd.length_le
  have hbyte {j : Nat} (hj : j < d.length) : d[j] = str.getD (v.B * k + e.CNT.val + j) 0#8 := by
    rw [hd.getElem hj, List.getElem_drop, List.getD_eq_getElem]
  refine ⟨⟨hf.hash, ?_, hf.padded, hf.terminal, hsrc⟩, Memory.wf_writeBytes hf.buf_wf h, ?_, fun a => ?_⟩
  · rw [Engine.takeBytes_BC, counter_add hb, hf.counter, e.takeBytes_CNT_val]
    omega
  · rw [e.takeBytes_CNT_val]
    omega
  · rw [Engine.takeBytes_BUF, Memory.read_writeBytes hf.buf_wf h, e.takeBytes_CNT_val]
    by_cases hin : e.CNT.val ≤ a ∧ a < e.CNT.val + d.length
    · rw [dif_pos hin, if_pos hin.2, hbyte]
      congr 1
      omega
    · have hsame : a < e.CNT.val ↔ a < e.CNT.val + d.length := by omega
      rw [dif_neg hin, hf.buf]
      simp only [hsame]

/-- What READ makes of the bytes of an answer: with none the stream has ended, others are taken; then the block's share
of the stream is complete, or it has grown and there is room for more. -/
theorem Fetched.readData (hf : Fetched str errs asked k e q) (hroom : e.CNT.val < v.B)
    (hlen : str.length < 2 ^ (v.BCW - 3)) {d : List Byte} (hd : d <+: str.drop (v.B * k + e.CNT.val))
    (hle : d.length ≤ e.requestSize) (hend : d = [] → str.drop (v.B * k + e.CNT.val) = [])
    {src : Source} (rs : List Nat) (hsrc : src.Gives errs asked ((str.drop (v.B * k + e.CNT.val)).drop d.length)) :
    Fetched str errs asked k (e.readAnswer (.data d)) ⟨src, rs⟩ ∧ Advanced str k e (e.readAnswer (.data d)) := by
  have hcnt := hf.cnt_le
  rw [Engine.requestSize] at hle
  rw [List.drop_drop, Nat.add_assoc] at hsrc
  obtain rfl | hne := eq_or_ne d []
  · have hover := List.drop_eq_nil_iff.1 (hend rfl)
    rw [Engine.readAnswer_end]
    exact ⟨hf.readEnd hsrc, .inl ⟨rfl, by rw [Engine.setPhase_CNT]; omega⟩⟩
  · have hpos : 0 < d.length := List.length_pos_of_ne_nil hne
    have hlong : d.length ≤ str.length - (v.B * k + e.CNT.val) := by simpa using hd.length_le
    have hfit : e.CNT.val + d.length ≤ v.B := by omega
    have hpad : e.PADDED = false := by
      rw [hf.padded, decide_eq_false_iff_not]
      omega
    have hb : e.BC.toNat + d.length < 2 ^ (v.BCW - 3) := by
      rw [hf.counter]
      omega
    rw [Engine.readAnswer_take hfit hpos hpad hb]
    refine ⟨hf.takeBytes hfit hd hpos hb hsrc, ?_⟩
    by_cases hfull : e.CNT.val + d.length = v.B
    · exact .inl ⟨by rw [Engine.takeBytes_SEQ, if_pos hfull], by rw [e.takeBytes_CNT_val]; omega⟩
    · exact .inr ⟨by rw [Engine.takeBytes_SEQ, if_neg hfull], by rw [e.takeBytes_CNT_val]; omega,
        by rw [e.takeBytes_CNT_val]; omega⟩

/-- One READ: its source errs and the instance fails, or the fetch has advanced. -/
theorem Fetched.read (hf : Fetched str errs asked k e q) (hp : e.SEQ.PHASE = Phase.read.code) (hroom : e.CNT.val < v.B)
    (hlen : str.length < 2 ^ (v.BCW - 3)) :
    ∃ e' q', e.tick q = .ok (e', q') ∧ q'.requests.length = q.requests.length + 1 ∧
      (e'.Failed errs asked ∨ (Fetched str errs asked k e' q' ∧ Advanced str k e e')) := by
  obtain ⟨a, src, hans, ⟨kind, i, rfl, hi, hkind⟩ | ⟨d, rfl, hd, hle, hend, hsrc⟩⟩ :=
    hf.source.answer (Nat.sub_pos_of_lt hroom)
  · exact ⟨_, _, Engine.tick_read hp hans, List.length_append, .inl ⟨rfl, rfl, i, hi, hkind⟩⟩
  · exact ⟨_, _, Engine.tick_read hp hans, List.length_append, .inr (hf.readData hroom hlen hd hle hend _ hsrc)⟩

/-- The READs of a block end in PAD with the block's share of the stream, or in ERROR; each of them is a request. -/
theorem Fetched.ticks_read (hf : Fetched str errs asked k e q) (hp : e.SEQ.PHASE = Phase.read.code)
    (hroom : e.CNT.val < v.B) (hlen : str.length < 2 ^ (v.BCW - 3)) :
    ∃ r e' q', Ticks r (e, q) (e', q') ∧ q'.requests.length = q.requests.length + r ∧
      (e'.Failed errs asked ∨ (Fetched str errs asked k e' q' ∧ e'.SEQ.PHASE = Phase.pad.code ∧
        e'.CNT.val = min v.B (str.length - v.B * k))) := by
  induction hm : v.B - e.CNT.val using Nat.strong_induction_on generalizing e q with
  | _ m ih =>
    obtain ⟨e₁, q₁, htick, hreq, hfail | ⟨hf₁, hdone | ⟨hp₁, hgrown, hroom₁⟩⟩⟩ := hf.read hp hroom hlen
    · exact ⟨1, e₁, q₁, .single htick, hreq, .inl hfail⟩
    · exact ⟨1, e₁, q₁, .single htick, hreq, .inr ⟨hf₁, hdone⟩⟩
    · obtain ⟨r, e', q', hticks, hreq', hend⟩ := ih _ (by omega) hf₁ hp₁ hroom₁ rfl
      exact ⟨r + 1, e', q', .cons htick hticks, by omega, hend⟩

end

end Sys2Proof.Machine
end

