-- ==== Sys2Proof/Proofs/DigestRun.lean ====
section
/-! PROOF. What the engine computes (spec/45_digest_driver.md R177 to R181): the block that PAD completes is the
padded message's, the micro-operations after it compress it, and so a run goes block by block to the digest, or to ERROR
where the source errs; then the obligations. -/

namespace Sys2Proof.Machine

/-! ### The hash of the first blocks -/

section
variable {v : Variant} {str : List Byte}

theorem hashAfter_zero : hashAfter v str 0 = H0 v := rfl

theorem hashAfter_succ {k : Nat} (hk : k < (messageBlocks v str).length) :
    hashAfter v str (k + 1) = compress v (hashAfter v str k) (messageBlocks v str)[k] := by
  rw [hashAfter, List.take_succ_eq_append_getElem hk, List.foldl_append]
  rfl

theorem serialize_hashAfter : serialize v (hashAfter v str (blockCount v str.length)) = sha2 v str := by
  rw [hashAfter, ← messageBlocks_length, List.take_length, sha2]

theorem getElem_messageBlocks {k a : Nat} (hk : k < (messageBlocks v str).length) (ha : a < v.B) :
    some (((messageBlocks v str)[k])[a]) = (padMessage v str)[v.B * k + a]? := by
  simp only [messageBlocks, List.getElem_ofFn, Vector.getElem_ofFn]
  rw [List.getElem?_eq_getElem]

end

/-! ### The block that PAD completes -/

/-- PARSE reads its words from the bytes of BUF alone (R150). -/
theorem Engine.parsed_eq_parseBlock {v : Variant} {e : Engine v} {b : Vector Byte v.B}
    (h : ∀ a (ha : a < v.B), Memory.read e.BUF a = b[a]) : e.parsed = parseBlock v b := by
  rw [Engine.parsed, parseBlock]
  congr 1
  funext i
  rw [Engine.memRead, Memory.readBE_eq_beValue]
  congr 2
  refine List.ext_getElem (by simp) fun j hj _ => ?_
  have hin : v.WB * i.val + j < v.B := by
    have hslice := slice_in_block v i
    rw [List.length_map, List.length_range'] at hj
    omega
  simpa using h _ hin

theorem getElem?_padMessage_lengthField (v : Variant) (str : List Byte) (j : Nat) :
    (padMessage v str)[(padMessage v str).length - v.LB + j]? = (beBytes v.LB (str.length * 8))[j]? := by
  rw [← List.getElem?_drop, drop_padMessage]

/-- Where `c` bytes of block `k` come from the stream, the length field fits after them in the last block and in no
block before it (R139). -/
theorem lengthField_fits_iff {v : Variant} {len k c : Nat} (hc : c = min v.B (len - v.B * k))
    (hk : k < blockCount v len) : c < v.B - v.LB ↔ k + 1 = blockCount v len := by
  have hlast := blockCount_le_iff v (len := len) (m := k + 1)
  have hLB := v.LB_lt_B
  rw [Nat.mul_succ] at hlast
  omega

section
variable {v : Variant} {e : Engine v}

/-- The length field of a terminal block, byte by byte (R138 line 6). -/
theorem Engine.read_padStep_lengthField (hm : Memory.wf v.B e.BUF = true) (hfits : e.CNT.val < v.B - v.LB) {a : Nat}
    (hlow : v.B - v.LB ≤ a) (hhigh : a < v.B) :
    some (Memory.read e.padStep.BUF a) = (beBytes v.LB (e.BC.toNat * 8))[a - (v.B - v.LB)]? := by
  have hfield := lengthField_in_block v
  have hj : a - (v.B - v.LB) < (beBytes v.LB (e.BC.toNat * 8)).length := by
    rw [beBytes_length]
    omega
  have hread := Memory.read_writeBytes_inside (e.markedBuf_wf hm) (by rwa [beBytes_length]) hj
  rw [Nat.add_sub_cancel' hlow] at hread
  rw [Engine.padStep_BUF, if_pos hfits, hread, List.getElem?_eq_getElem hj]

end

section
variable {v : Variant} {str : List Byte} {errs : List (Nat × BitVec 8)} {asked k : Nat} {e : Engine v} {q : SrcPort}
  (hf : Fetched str errs asked k e q) (hcnt : e.CNT.val = min v.B (str.length - v.B * k))
  (hk : k < blockCount v str.length)
include hf hcnt hk

/-- PAD makes the Block Buffer the block of the padded message (R138, R179). -/
theorem Fetched.read_padStep {a : Nat} (ha : a < v.B) :
    some (Memory.read e.padStep.BUF a) = (padMessage v str)[v.B * k + a]? := by
  have hlast := lengthField_fits_iff hcnt hk
  have hLB := v.LB_lt_B
  have htotal := padMessage_length v str
  by_cases hfield : v.B - v.LB ≤ a ∧ a < v.B ∧ e.CNT.val < v.B - v.LB
  · obtain ⟨hlow, -, hfits⟩ := hfield
    have hend := hlast.1 hfits
    have hBC : e.BC.toNat = str.length := by
      rw [hf.counter]
      omega
    have hindex : v.B * k + a = (padMessage v str).length - v.LB + (a - (v.B - v.LB)) := by
      rw [htotal, ← hend, Nat.mul_succ]
      omega
    rw [Engine.read_padStep_lengthField hf.buf_wf hfits hlow ha, hBC, hindex, getElem?_padMessage_lengthField]
  · rw [Engine.read_padStep_outside_lengthField hf.buf_wf hfield, Engine.read_markedBuf hf.buf_wf, hf.padded, hf.buf]
    rcases Nat.lt_trichotomy (v.B * k + a) str.length with hstream | hmarker | hzero
    · rw [getElem?_padMessage_stream hstream, if_neg (by omega), if_pos (by omega), List.getD_eq_getElem _ _ hstream]
    · rw [hmarker, getElem?_padMessage_marker, if_pos]
      simp only [decide_eq_false_iff_not]
      omega
    · have hbefore : v.B * k + a < (padMessage v str).length - v.LB := by
        by_cases hend : k + 1 = blockCount v str.length
        · rw [← hend, Nat.mul_succ] at htotal
          omega
        · have hmore : v.B * (k + 2) ≤ v.B * blockCount v str.length := Nat.mul_le_mul_left _ (by omega)
          rw [Nat.mul_add] at hmore
          omega
      rw [getElem?_padMessage_zero hzero hbefore, if_neg, if_neg (by omega)]
      simp only [decide_eq_false_iff_not]
      omega

/-- The block that PAD completes is parsed as the reference's (R150, R179). -/
theorem Fetched.parsed_padStep (hk' : k < (messageBlocks v str).length) :
    e.padStep.parsed = parseBlock v (messageBlocks v str)[k] := by
  refine Engine.parsed_eq_parseBlock fun a ha => Option.some.inj ?_
  rw [hf.read_padStep hcnt hk ha, getElem_messageBlocks hk' ha]

end

/-! ### From PARSE to the next block -/

/-- An instance after PARSE, EXPAND, LOAD, all rounds and FOLD. -/
def Engine.compressed {v : Variant} (e : Engine v) : Engine v :=
  ((e.parseStep.expandStep).afterRounds v.N (Nat.le_refl _)).foldStep

section
variable {v : Variant} (e : Engine v)

theorem Engine.compressed_H : e.compressed.H = addWords e.H (allRounds v (expand v e.parsed) e.H) := rfl
theorem Engine.compressed_BC : e.compressed.BC = e.BC := rfl
theorem Engine.compressed_PADDED : e.compressed.PADDED = e.PADDED := rfl
theorem Engine.compressed_TERMINAL : e.compressed.TERMINAL = e.TERMINAL := rfl

theorem Engine.compressed_PHASE :
    e.compressed.SEQ.PHASE = (if e.TERMINAL = true then Phase.emit else Phase.clrbuf).code := rfl

/-- `N + 4` of the steps R177 counts for a block. -/
theorem Engine.ticks_compressed (q : SrcPort) (hp : e.SEQ.PHASE = Phase.parse.code) :
    Ticks (v.N + 4) (e, q) (e.compressed, q) := by
  have hparse : Ticks 1 (e, q) (e.parseStep, q) := .single (Engine.tick_parse hp)
  have hexpand : Ticks 1 (e.parseStep, q) (e.parseStep.expandStep, q) := .single (Engine.tick_expand rfl)
  have hrounds := e.parseStep.expandStep.ticks_rounds q rfl (Nat.le_refl v.N)
  have hfold : Ticks 1 (e.parseStep.expandStep.afterRounds v.N (Nat.le_refl _), q) (e.compressed, q) :=
    .single (Engine.tick_fold (by rw [Engine.afterRounds, if_pos rfl]))
  have hall := ((hparse.trans hexpand).trans hrounds).trans hfold
  rwa [show 1 + 1 + (v.N + 1) + 1 = v.N + 4 by omega] at hall

end

/-! ### Blocks in a row -/

section
variable {v : Variant} {str : List Byte} {errs : List (Nat × BitVec 8)} {asked k : Nat} {e : Engine v} {q : SrcPort}

/-- After the block that PAD completes comes EMIT, if it was the last, or the next block. -/
theorem Fetched.after_block (hf : Fetched str errs asked k e q) (hcnt : e.CNT.val = min v.B (str.length - v.B * k))
    (hk : k < blockCount v str.length) :
    e.padStep.compressed.H = hashAfter v str (k + 1) ∧
      ((k + 1 = blockCount v str.length ∧ e.padStep.compressed.SEQ.PHASE = Phase.emit.code) ∨
        (k + 1 < blockCount v str.length ∧ e.padStep.compressed.SEQ.PHASE = Phase.clrbuf.code ∧
          Consumed str errs asked (k + 1) (v.B * (k + 1)) e.padStep.compressed q)) := by
  have hk' : k < (messageBlocks v str).length := by rwa [messageBlocks_length]
  have hH : e.padStep.compressed.H = hashAfter v str (k + 1) := by
    rw [Engine.compressed_H, hf.parsed_padStep hcnt hk hk', Engine.padStep_H, hf.hash, hashAfter_succ hk']
    rfl
  have hterminal : e.padStep.TERMINAL = decide (k + 1 = blockCount v str.length) := by
    rw [Engine.padStep_TERMINAL, hf.terminal, Bool.false_or, decide_eq_decide]
    exact lengthField_fits_iff hcnt hk
  refine ⟨hH, ?_⟩
  rw [Engine.compressed_PHASE, hterminal]
  obtain hlast | hmore := Nat.eq_or_lt_of_le hk
  · exact .inl ⟨hlast, by rw [if_pos (decide_eq_true hlast)]⟩
  · have hnot : decide (k + 1 = blockCount v str.length) = false := decide_eq_false hmore.ne
    refine .inr ⟨hmore, by rw [hnot]; rfl, ⟨hH, ?_, ?_, hterminal.trans hnot, ?_⟩⟩
    · rw [Engine.compressed_BC, Engine.padStep_BC, hf.counter, Nat.mul_succ]
      omega
    · rw [Engine.compressed_PADDED, Engine.padStep_PADDED, hf.padded, Nat.mul_succ, ← Bool.decide_or, decide_eq_decide]
      omega
    · have hdrop : str.drop (v.B * (k + 1)) = str.drop (v.B * k + e.CNT.val) := by
        rw [List.drop_eq_drop_iff, Nat.mul_succ]
        omega
      exact hdrop ▸ hf.source

/-- A block takes `N + 6` steps and its READs, or the source errs in one of those (R177). -/
theorem Consumed.ticks_block (hc : Consumed str errs asked k (v.B * k) e q) (hp : e.SEQ.PHASE = Phase.clrbuf.code)
    (hk : k < blockCount v str.length) (hlen : str.length < 2 ^ (v.BCW - 3)) :
    ∃ n r e' q', Ticks n (e, q) (e', q') ∧ (e'.Failed errs asked ∨
      (n = v.N + 6 + r ∧ q'.requests.length = q.requests.length + r ∧ e'.H = hashAfter v str (k + 1) ∧
        ((k + 1 = blockCount v str.length ∧ e'.SEQ.PHASE = Phase.emit.code) ∨
          (k + 1 < blockCount v str.length ∧ e'.SEQ.PHASE = Phase.clrbuf.code ∧
            Consumed str errs asked (k + 1) (v.B * (k + 1)) e' q')))) := by
  have hclear : Ticks 1 (e, q) (e.clrbufStep, q) := .single (Engine.tick_clrbuf hp)
  obtain ⟨r, e₁, q₁, hreads, hrequests, hfail | ⟨hf, hpad, hcnt⟩⟩ := hc.clrbufStep.ticks_read rfl v.B_pos hlen
  · exact ⟨_, r, e₁, q₁, hclear.trans hreads, .inl hfail⟩
  · have hpadded : Ticks 1 (e₁, q₁) (e₁.padStep, q₁) := .single (Engine.tick_pad hpad)
    have hcompress := e₁.padStep.ticks_compressed q₁ (by rw [Engine.padStep_SEQ])
    obtain ⟨hH, hnext⟩ := hf.after_block hcnt hk
    exact ⟨_, r, _, q₁, ((hclear.trans hreads).trans hpadded).trans hcompress, .inr ⟨by omega, hrequests, hH, hnext⟩⟩

/-- The instance has ended in DONE with the digest of the stream. -/
def Engine.Digested {v : Variant} (str : List Byte) (e : Engine v) : Prop :=
  e.inPhase .done = true ∧ e.DIGEST = sha2 v str

/-- All the blocks that are left, then EMIT: the digest, after the steps that R177 counts, or a failure. -/
theorem Consumed.ticks_all (hc : Consumed str errs asked k (v.B * k) e q) (hp : e.SEQ.PHASE = Phase.clrbuf.code)
    {left : Nat} (hk : k + (left + 1) = blockCount v str.length) (hlen : str.length < 2 ^ (v.BCW - 3)) :
    ∃ n r e' q', Ticks n (e, q) (e', q') ∧ (e'.Failed errs asked ∨
      (n = (left + 1) * (v.N + 6) + r + 1 ∧ q'.requests.length = q.requests.length + r ∧ e'.Digested str)) := by
  induction left generalizing k e q with
  | zero =>
    obtain ⟨n, r, e₁, q₁, hticks, hfail | ⟨hn, hrequests, hH, hnext⟩⟩ := hc.ticks_block hp (by omega) hlen
    · exact ⟨n, r, e₁, q₁, hticks, .inl hfail⟩
    · obtain ⟨hlast, hemit⟩ | ⟨hmore, -, -⟩ := hnext
      · refine ⟨_, r, e₁.emitStep, q₁, hticks.trans (.single (Engine.tick_emit hemit)),
          .inr ⟨by omega, hrequests, ?_, ?_⟩⟩
        · exact Engine.inPhase_iff.2 rfl
        · rw [Engine.emitStep_DIGEST, hH, hlast, serialize_hashAfter]
      · omega
  | succ left ih =>
    obtain ⟨n, r, e₁, q₁, hticks, hfail | ⟨hn, hrequests, hH, hnext⟩⟩ := hc.ticks_block hp (by omega) hlen
    · exact ⟨n, r, e₁, q₁, hticks, .inl hfail⟩
    · obtain ⟨hlast, -⟩ | ⟨-, hclrbuf, hc₁⟩ := hnext
      · omega
      · obtain ⟨n', r', e', q', hticks', hend⟩ := ih hc₁ hclrbuf (by omega)
        refine ⟨n + n', r + r', e', q', hticks.trans hticks', hend.imp_right ?_⟩
        rintro ⟨hn', hrequests', hdigest⟩
        refine ⟨?_, by omega, hdigest⟩
        rw [hn, hn']
        ring

end

/-! ### The whole run -/

/-- START begins with no block folded and the source at its first byte (R172). -/
theorem Engine.consumed_startStep {v : Variant} {str : List Byte} {errs : List (Nat × BitVec 8)} {asked : Nat}
    (e : Engine v) (free : Nat) {q : SrcPort} (hsource : q.source.Gives errs asked str) :
    Consumed str errs asked 0 (v.B * 0) (e.startStep free) q where
  hash := hashAfter_zero.symm
  counter := by simp
  padded := by simp
  terminal := rfl
  source := hsource

section
variable {v : Variant} {s : State} {str : List Byte} {chunks : List Nat} {errs : List (Nat × BitVec 8)} {asked : Nat}

/-- A START that is taken, then the instance alone: the run ends with the digest, after the steps that R177 counts, or in
a failure that the source was set to give. -/
theorem exists_run_to_end (hh : (s.engine v).holds = true) (hsource : (s.port v).source = .stream str chunks errs asked)
    (hchunks : ∀ c ∈ chunks, 1 ≤ c) (hlen : str.length < 2 ^ (v.BCW - 3)) :
    ∃ (n r : Nat) (t : State),
      Host.Core.run Sys2Proof.core (n + 1)
        ({ s with cmd := some (cmdWord 1#3 v), schedule := List.replicate n (.engine v) } : State) = .next t ∧
      (∀ u, u ≠ v → t.engine u = s.engine u) ∧
      ((t.engine v).Failed errs asked ∨
        (n = blockCount v str.length * (v.N + 6) + r + 1 ∧
          (t.port v).requests.length = (s.port v).requests.length + r ∧ (t.engine v).Digested str)) := by
  have hconsumed := (s.engine v).consumed_startStep s.freeCount (q := s.port v)
    ⟨chunks, asked, hsource, hchunks, Nat.le_refl asked⟩
  have hpos : ¬ blockCount v str.length ≤ 0 := by
    rw [blockCount_le_iff, Nat.mul_zero]
    omega
  obtain ⟨left, hleft⟩ : ∃ left, 0 + (left + 1) = blockCount v str.length := ⟨blockCount v str.length - 1, by omega⟩
  obtain ⟨n, r, e', q', hticks, hend⟩ := hconsumed.ticks_all rfl hleft hlen
  have hstep := (step_start (s := { s with cmd := some (cmdWord 1#3 v), schedule := List.replicate n (.engine v) })
    rfl (by cases v <;> exact hh)).trans (exec_start_of_holds (by cases v <;> exact hh))
  obtain ⟨t, hrun, hengine, hport, hothers⟩ := hticks.run
    (s := (({ s with cmd := none, schedule := List.replicate n (.engine v) } : State).setEngine v
      ((s.engine v).startStep s.freeCount)).drawFree)
    (by simp) (by cases v <;> rfl) (by simp) (by simp)
  refine ⟨n, r, t, ?_, fun u hu => ?_, ?_⟩
  · rw [run_next hstep]
    cases v <;> exact hrun
  · rw [hothers u hu, State.engine_drawFree, State.engine_setEngine_ne _ _ _ hu]
    cases u <;> rfl
  · rw [hengine, hport, ← hleft, Nat.zero_add]
    exact hend

end

/-- Settles O47: the failure would take an error the source is not set to give. -/
theorem runEndsInDoneWithSha2 : Obligations.RunEndsInDoneWithSha2 := by
  intro v s str chunks errs asked hh hsource hchunks hnever hlen
  obtain ⟨n, r, t, hrun, hothers, ⟨-, -, i, hi, hkind⟩ | ⟨hn, hrequests, hdone, hdigest⟩⟩ :=
    exists_run_to_end hh hsource hchunks hlen
  · rw [hnever i hi] at hkind
    cases hkind
  · exact ⟨n, r, t, hrun, hdone, hdigest, hrequests, hn, hothers⟩

/-- Settles O48: the two ends of the run, as results. -/
theorem runEndsRightOrInError : Obligations.RunEndsRightOrInError := by
  intro v s str chunks errs asked hh hsource hchunks hlen
  obtain ⟨n, r, t, hrun, -, ⟨herror, hcause, i, hi, hkind⟩ | ⟨-, -, hdone, hdigest⟩⟩ :=
    exists_run_to_end hh hsource hchunks hlen
  · refine ⟨n, t, hrun, .inr ⟨i, _, hi, hkind, ?_⟩⟩
    rw [Engine.result, Engine.inPhase_of_code herror, Engine.inPhase_of_code herror, hcause]
    rfl
  · refine ⟨n, t, hrun, .inl ?_⟩
    rw [Engine.result, if_pos hdone, hdigest]

end Sys2Proof.Machine
end
